-- ==== Sys2Proof/Word.lean ====
section
/-! DEFINITION. The two widths of the block (00_scope.md section 6: a byte is 8 bits, a word is 32 bits). -/
namespace Sys2Proof

/-- A word: 32 bits (00_scope.md section 6; rule R7). -/
abbrev Word := BitVec 32

/-- A byte: 8 bits, a source pixel (00_scope.md section 6; rule R7). -/
abbrev Byte := BitVec 8

end Sys2Proof
end

