-- ==== Sys2Proof/Syntax.lean ====
section
/-! DEFINITION. The instructions: one constructor per row of spec/opcode_table.json, the host transaction that
carries them (30_encoding.md rule R51), and the pseudo-instructions of rule R60. -/
namespace Sys2Proof

/-- The direction bit of a host transaction: 0 is RD, 1 is WR (30_encoding.md rule R51). -/
inductive Rw where
  | rd
  | wr
  deriving DecidableEq, Repr

/-- A format-H request, the three request fields of 30_encoding.md rule R51. -/
structure Request where
  /-- Direction. -/
  rw : Rw
  /-- Word address in the `REG` space. -/
  addr : Word
  /-- The word to write; ignored on RD. -/
  wdata : Word
  deriving DecidableEq, Repr

/-- A command word after format-C decoding (30_encoding.md rules R54 and R56). -/
inductive Command where
  | clear
  | pack
  | reset
  | illegal (c : Word)
  deriving DecidableEq, Repr

/-- The operations of the block, in the order of spec/opcode_table.json: seven of format H, four of format C. -/
inductive Instr where
  /-- `WR.CMD`: hand the command word `c` to the engine (40_host_access.md rule R71). -/
  | wrCmd (c : Word)
  /-- `RD.STATUS` (rule R72). -/
  | rdStatus
  /-- `RD.BPP` (rule R73). -/
  | rdBpp
  /-- `WR.BPP` with the new depth (rule R74). -/
  | wrBpp (wdata : Word)
  /-- `RD.BMP` of word index `k`, which is `addr[30:0]` (rule R75). -/
  | rdBmp (k : BitVec 31)
  /-- `WR.BMP` of word index `k` (rule R76). -/
  | wrBmp (k : BitVec 31) (wdata : Word)
  /-- `ERR`: the not-permitted request, the default of format H (rule R77). -/
  | err (rw : Rw) (addr : Word) (wdata : Word)
  /-- `CLEAR`, carried as the data of a WR.CMD (42_clear_reset.md rule R110). -/
  | clear
  /-- `PACK`, carried as the data of a WR.CMD (41_pack.md rule R80). -/
  | pack
  /-- `RESET`, carried as the data of a WR.CMD (42_clear_reset.md rule R111). -/
  | reset
  /-- `ILLEGAL`: every other command word, the default of format C (42_clear_reset.md rule R112). -/
  | illegal (c : Word)
  deriving DecidableEq, Repr

/-- The bits of one instruction in the format its row has (30_encoding.md rule R50): a 65-bit request `Q`
(rule R52) or a 32-bit command word `c` (rule R54). -/
inductive Bits where
  | formatH (q : BitVec 65)
  | formatC (c : Word)
  deriving DecidableEq, Repr

/-- The pseudo-instructions of 30_encoding.md rule R60. -/
inductive Pseudo where
  | clear
  | pack
  | reset
  | setbpp (n : Word)
  | getbpp
  | getstatus
  | peek (k : BitVec 31)
  | poke (k : BitVec 31) (v : Word)
  | loadimg (n : Word)
  deriving DecidableEq, Repr

end Sys2Proof
end

