-- ==== Sys2Proof/WellFormed.lean ====
section
/-! DEFINITION. Which terms of `Instr` stand for an operation the encoding can express (30_encoding.md rules
R56 and R57): the two default rows exist only for what no other row of their format takes. -/
namespace Sys2Proof

/-- A command word that no other row of format C takes: every word but 1, 2 and 3 (30_encoding.md rule R57). -/
def unassignedCommand (c : Word) : Bool :=
  c != 1#32 && c != 2#32 && c != 3#32

/-- A (`rw`, `addr`) pair that no other row of format H matches (30_encoding.md rule R57): RD of CMD, WR of
STATUS, any access to 0x0000_0003 .. 0x7FFF_FFFF. A window address always matches RD.BMP or WR.BMP. -/
def unmappedPair (rw : Rw) (addr : Word) : Bool :=
  (3 ≤ addr.toNat && addr.toNat < 0x80000000)
    || (rw == .rd && addr == 0#32)
    || (rw == .wr && addr == 1#32)

/-- The data a request carries where its direction ignores it: a RD's data is written as 0 (rule R52). -/
def ignoredDataIsZero (rw : Rw) (wdata : Word) : Bool :=
  rw == .wr || wdata == 0#32

/-- The checks, one case per constructor. Every operand value of the other rows is encodable (rule R55). -/
def Instr.wellFormed : Instr → Bool
  | .wrCmd _ => true
  | .rdStatus => true
  | .rdBpp => true
  | .wrBpp _ => true
  | .rdBmp _ => true
  | .wrBmp _ _ => true
  | .err rw addr wdata => unmappedPair rw addr && ignoredDataIsZero rw wdata
  | .clear => true
  | .pack => true
  | .reset => true
  | .illegal c => unassignedCommand c

end Sys2Proof
end

