-- ==== Sys2Proof/Decode.lean ====
section
/-! DEFINITION. The decoder of both formats (30_encoding.md rules R50 to R57), the match and mask rows of rule
R61, and the encoder. Format H is total on requests and format C on command words; only a number that is wider
than its format is rejected, by name. -/
namespace Sys2Proof

/-! ### The address map (20_memory.md rule R35) -/

/-- CMD, write only. -/
def cmdAddr : Word := 0x00000000#32

/-- STATUS, read only. -/
def statusAddr : Word := 0x00000001#32

/-- BPP, read and write. -/
def bppAddr : Word := 0x00000002#32

/-- `addr[31]` = 1 selects the window onto the Bitmap Buffer (30_encoding.md rule R55). -/
def inWindow (addr : Word) : Bool := addr.getLsbD 31

/-- The window's word index `k = addr[30:0]` (30_encoding.md rule R55). -/
def windowIndex (addr : Word) : BitVec 31 := addr.extractLsb' 0 31

/-- The address of word `k` of the window, 0x8000_0000 + k (20_memory.md rule R35). -/
def windowAddr (k : BitVec 31) : Word := 1#1 ++ k

/-! ### The 65-bit serialisation `Q` (30_encoding.md rule R52) -/

/-- The direction as the bit `rw`. -/
def rwBit (rw : Rw) : BitVec 1 :=
  match rw with
  | .rd => 0#1
  | .wr => 1#1

/-- `Q[64]` = `rw`, `Q[63:32]` = `addr`, `Q[31:0]` = `wdata`. -/
def serialise (q : Request) : BitVec 65 := rwBit q.rw ++ q.addr ++ q.wdata

/-- The request a `Q` stands for. -/
def deserialise (q : BitVec 65) : Request where
  rw := if q.getLsbD 64 then .wr else .rd
  addr := q.extractLsb' 32 32
  wdata := q.extractLsb' 0 32

/-! ### Format C -/

/-- `c[7:0]`, the operation (30_encoding.md rule R54). -/
def commandOp (c : Word) : BitVec 8 := c.extractLsb' 0 8

/-- `c[31:8]`, reserved, must be 0 (30_encoding.md rule R54). -/
def commandReserved (c : Word) : BitVec 24 := c.extractLsb' 8 24

/-- Format C (30_encoding.md rules R54, R56, R57): a non-zero reserved bit makes the word illegal. -/
def decodeCommand (c : Word) : Command :=
  if commandReserved c ≠ 0#24 then .illegal c
  else if commandOp c = 0x01#8 then .clear
  else if commandOp c = 0x02#8 then .pack
  else if commandOp c = 0x03#8 then .reset
  else .illegal c

/-- The row of the opcode table that a command word belongs to. -/
def Command.toInstr : Command → Instr
  | .clear => .clear
  | .pack => .pack
  | .reset => .reset
  | .illegal c => .illegal c

/-! ### Format H -/

/-- Data is ignored on RD (30_encoding.md rule R51): a request that is not permitted keeps its data only when
it is a WR. -/
def keptData (rw : Rw) (wdata : Word) : Word :=
  match rw with
  | .rd => 0#32
  | .wr => wdata

/-- Format H (30_encoding.md rule R56): decided by `rw` and `addr`. Whether a window index is below `BUF_WORDS`
is decided by the meaning (40_host_access.md rules R75 and R76), which knows the parameter. -/
def decode (q : Request) : Instr :=
  match q.rw with
  | .rd =>
    if q.addr = statusAddr then .rdStatus
    else if q.addr = bppAddr then .rdBpp
    else if inWindow q.addr then .rdBmp (windowIndex q.addr)
    else .err .rd q.addr (keptData .rd q.wdata)
  | .wr =>
    if q.addr = cmdAddr then .wrCmd q.wdata
    else if q.addr = bppAddr then .wrBpp q.wdata
    else if inWindow q.addr then .wrBmp (windowIndex q.addr) q.wdata
    else .err .wr q.addr (keptData .wr q.wdata)

/-- The instruction an instruction's bits stand for, in either format. -/
def decodeBits : Bits → Instr
  | .formatH q => decode (deserialise q)
  | .formatC c => (decodeCommand c).toInstr

/-! ### Match and mask (30_encoding.md rule R61) -/

/-- A row's match and mask for width `w`. -/
structure TableRow (w : Nat) where
  /-- The row's mnemonic in spec/opcode_table.json. -/
  mnemonic : String
  /-- The bits a member of the row has where the mask is 1. -/
  pattern : BitVec w
  /-- The bits the row fixes. -/
  mask : BitVec w
  deriving DecidableEq, Repr

/-- `Q & mask = match`. -/
def TableRow.takes {w : Nat} (r : TableRow w) (q : BitVec w) : Bool := q &&& r.mask == r.pattern

/-- The six rows of format H with a mask; the default row `ERR` takes the rest. -/
def rowsH : List (TableRow 65) :=
  [ ⟨"WR.CMD",    0x10000000000000000#65, 0x1FFFFFFFF00000000#65⟩,
    ⟨"RD.STATUS", 0x00000000100000000#65, 0x1FFFFFFFF00000000#65⟩,
    ⟨"RD.BPP",    0x00000000200000000#65, 0x1FFFFFFFF00000000#65⟩,
    ⟨"WR.BPP",    0x10000000200000000#65, 0x1FFFFFFFF00000000#65⟩,
    ⟨"RD.BMP",    0x08000000000000000#65, 0x18000000000000000#65⟩,
    ⟨"WR.BMP",    0x18000000000000000#65, 0x18000000000000000#65⟩ ]

/-- The three rows of format C with a mask; the default row `ILLEGAL` takes the rest. -/
def rowsC : List (TableRow 32) :=
  [ ⟨"CLEAR", 0x00000001#32, 0xFFFFFFFF#32⟩,
    ⟨"PACK",  0x00000002#32, 0xFFFFFFFF#32⟩,
    ⟨"RESET", 0x00000003#32, 0xFFFFFFFF#32⟩ ]

/-- The mnemonic of an instruction's row in spec/opcode_table.json. -/
def Instr.mnemonic : Instr → String
  | .wrCmd _ => "WR.CMD"
  | .rdStatus => "RD.STATUS"
  | .rdBpp => "RD.BPP"
  | .wrBpp _ => "WR.BPP"
  | .rdBmp _ => "RD.BMP"
  | .wrBmp _ _ => "WR.BMP"
  | .err _ _ _ => "ERR"
  | .clear => "CLEAR"
  | .pack => "PACK"
  | .reset => "RESET"
  | .illegal _ => "ILLEGAL"

/-- The mnemonic of the first row that takes `q`, or the format's default row. -/
def rowOf {w : Nat} : List (TableRow w) → String → BitVec w → String
  | [], fallback, _ => fallback
  | r :: rest, fallback, q => if r.takes q then r.mnemonic else rowOf rest fallback q

/-! ### A number as an instruction's bits -/

/-- Why a number is not an instruction's bits. -/
inductive DecodeReject where
  /-- A command word is always 32 bits (30_encoding.md rule R58). Safe: nothing is decoded. -/
  | commandTooWide
  /-- A request is always 65 bits (30_encoding.md rules R52 and R58). Safe: nothing is decoded. -/
  | requestTooWide
  deriving DecidableEq, Repr

/-- The bits of a table row's word: a row of at most 32 bits is of format C, a wider one of format H. -/
def readTableWord (nbits w : Nat) : Except DecodeReject Bits :=
  if nbits ≤ 32 then
    if w < 2 ^ 32 then .ok (.formatC (BitVec.ofNat 32 w)) else .error .commandTooWide
  else
    if w < 2 ^ 65 then .ok (.formatH (BitVec.ofNat 65 w)) else .error .requestTooWide

/-- The instruction the decoder reads from a word numbered as spec/opcode_table.json numbers its bits. -/
def decodeTableWord (nbits w : Nat) : Option Instr :=
  match readTableWord nbits w with
  | .ok b => some (decodeBits b)
  | .error _ => none

/-! ### The encoder -/

/-- The request of a format-H operation, and the request that carries a format-C one: a WR to CMD whose data is
the command word (30_encoding.md rules R50 and R56). A RD's data is written as 0 (rule R52). -/
def requestOf : Instr → Request
  | .wrCmd c => ⟨.wr, cmdAddr, c⟩
  | .rdStatus => ⟨.rd, statusAddr, 0#32⟩
  | .rdBpp => ⟨.rd, bppAddr, 0#32⟩
  | .wrBpp v => ⟨.wr, bppAddr, v⟩
  | .rdBmp k => ⟨.rd, windowAddr k, 0#32⟩
  | .wrBmp k v => ⟨.wr, windowAddr k, v⟩
  | .err rw addr wdata => ⟨rw, addr, wdata⟩
  | .clear => ⟨.wr, cmdAddr, 0x00000001#32⟩
  | .pack => ⟨.wr, cmdAddr, 0x00000002#32⟩
  | .reset => ⟨.wr, cmdAddr, 0x00000003#32⟩
  | .illegal c => ⟨.wr, cmdAddr, c⟩

/-- The bits of an instruction in the format of its row. -/
def encode : Instr → Bits
  | .wrCmd c => .formatH (serialise (requestOf (.wrCmd c)))
  | .rdStatus => .formatH (serialise (requestOf .rdStatus))
  | .rdBpp => .formatH (serialise (requestOf .rdBpp))
  | .wrBpp v => .formatH (serialise (requestOf (.wrBpp v)))
  | .rdBmp k => .formatH (serialise (requestOf (.rdBmp k)))
  | .wrBmp k v => .formatH (serialise (requestOf (.wrBmp k v)))
  | .err rw addr wdata => .formatH (serialise (requestOf (.err rw addr wdata)))
  | .clear => .formatC 0x00000001#32
  | .pack => .formatC 0x00000002#32
  | .reset => .formatC 0x00000003#32
  | .illegal c => .formatC c

/-- The request the host issues so that an instruction's bits reach the block: a request as it stands, a command
word as the data of a WR to CMD. -/
def carrier : Bits → Request
  | .formatH q => deserialise q
  | .formatC c => ⟨.wr, cmdAddr, c⟩

/-- The request for a table row's word; a number wider than its format is cut to the format's width. -/
def tableRequest (nbits w : Nat) : Request :=
  if nbits ≤ 32 then carrier (.formatC (BitVec.ofNat 32 w))
  else carrier (.formatH (BitVec.ofNat 65 w))

/-! ### Pseudo-instructions (30_encoding.md rule R60) -/

/-- The transactions a pseudo-instruction expands to. -/
def expand : Pseudo → List Request
  | .clear => [⟨.wr, cmdAddr, 0x1#32⟩]
  | .pack => [⟨.wr, cmdAddr, 0x2#32⟩]
  | .reset => [⟨.wr, cmdAddr, 0x3#32⟩]
  | .setbpp n => [⟨.wr, bppAddr, n⟩]
  | .getbpp => [⟨.rd, bppAddr, 0#32⟩]
  | .getstatus => [⟨.rd, statusAddr, 0#32⟩]
  | .peek k => [⟨.rd, windowAddr k, 0#32⟩]
  | .poke k v => [⟨.wr, windowAddr k, v⟩]
  | .loadimg n => [⟨.wr, bppAddr, n⟩, ⟨.wr, cmdAddr, 0x1#32⟩, ⟨.wr, cmdAddr, 0x2#32⟩]

end Sys2Proof
end

