-- ==== Sys2Proof/Config.lean ====
section
/-! DEFINITION. The implementation parameters of 00_scope.md section 4: constants for the life of one block,
not fixed by the spec to one value. They are a record that the state carries and no step changes
(notes/assumptions/1.md), so that every claim about all states is a claim about all parameters. -/
namespace Sys2Proof.Config

/-- The two open parameters (rules R4 and R5). -/
structure Params where
  /-- `CAP_PIXELS`: the largest number of source pixels one PACK processes (rule R4). -/
  capPixels : Nat
  /-- `BUF_WORDS`: the number of 32-bit words in the Bitmap Buffer (rule R5). -/
  bufWords : Nat
  deriving DecidableEq, Repr

/-- The constraint of rules R4 and R5: both parameters lie in 1 .. 2^31. -/
abbrev Params.legal (p : Params) : Prop :=
  1 ≤ p.capPixels ∧ p.capPixels ≤ 2 ^ 31 ∧ 1 ≤ p.bufWords ∧ p.bufWords ≤ 2 ^ 31

/-- The defaults of rules R4 and R5: `CAP_PIXELS` is 32768 and `BUF_WORDS` is `CAP_PIXELS`. -/
def Params.default : Params where
  capPixels := 32768
  bufWords := 32768

end Sys2Proof.Config
end

