-- ==== Sys2Proof/Machine/State.lean ====
section
/-! DEFINITION. The state: all that 10_state.md rule R10 gives the block, beside it the parameters, and the two
things outside the block that its steps read or write: the source port (20_memory.md rules R32 and R33) and the
host's side of the port (30_encoding.md rule R51). All of it is plain data. -/
namespace Sys2Proof.Machine

/-- The engine's phase (10_state.md rule R17). -/
inductive Phase where
  | idle
  | packing
  deriving DecidableEq, Repr

/-- The result codes of 60_exceptions.md rule R122, by name. -/
inductive ResultCode where
  /-- Code 0: CLEAR, RESET and PACK, when they completed and PACK suppressed no write. -/
  | ok
  /-- Code 1: PACK, when `src.indexed` = 0. -/
  | unsupportedFormat
  /-- Code 2: PACK, when `src.available` = 0. -/
  | sourceUnavailable
  /-- Code 3: PACK, when `BPP` is not a legal depth. -/
  | invalidDepth
  /-- Code 4: a WR to CMD whose data is not a legal command word. -/
  | illegalCommand
  /-- Code 5: PACK at its completion, when it suppressed a write. -/
  | addrRange
  deriving DecidableEq, Repr

/-- The Bitmap Buffer's content (10_state.md rule R11): the word at each listed index, every other word being
`Memory.blank`. `BMP` has no unit but the word (20_memory.md rule R31), so a cell is a word. -/
abbrev Memory := List (Nat × Word)

/-- What a word nothing has written reads as: every word is 0 at reset (10_state.md rule R22). -/
def Memory.blank : Word := 0#32

/-- What the source provider presents on the source port (20_memory.md rules R32 and R33): the descriptor, and
the bytes in index order, as many as the provider can deliver. -/
structure Source where
  /-- `src.available`: the backing store can be read. -/
  available : Bool
  /-- `src.indexed`: the image has an indexed colour table. -/
  indexed : Bool
  /-- `src.W`, in pixels. -/
  w : BitVec 16
  /-- `src.H`, in pixels. -/
  h : BitVec 16
  /-- Source byte `i` is entry `i` of the list. -/
  bytes : List Byte
  deriving DecidableEq, Repr

/-- The response to a host transaction (30_encoding.md rules R51 and R53). The data of an ERR response and of the
response to a WR carries no information (93_implementation_defined.md X5), so neither has any here. -/
inductive Response where
  /-- OK, to a permitted WR. -/
  | done
  /-- OK with the word read, to a permitted RD. -/
  | data (rdata : Word)
  /-- ERR, to a request that is not permitted. -/
  | err
  deriving DecidableEq, Repr

/-- What the outside world does to the block, in the order in which it does it (40_host_access.md rule R79). -/
inductive Event where
  /-- The host issues a transaction. -/
  | request (q : Request)
  /-- The source provider presents a source (the `.source` line of 30_encoding.md rule R59). -/
  | present (src : Source)
  /-- Power-on reset, after that many more engine steps of a running PACK, or at once when the engine is idle
  (70_reset_and_hazards.md rule R142). -/
  | powerOn (engineSteps : Nat)
  deriving DecidableEq, Repr

/-- The state of the block and of its ports. -/
structure State where
  /-- `CAP_PIXELS` and `BUF_WORDS` (00_scope.md rules R4 and R5); no step changes them. -/
  params : Config.Params
  /-- `BITMAP` (10_state.md rule R11). -/
  bmp : Memory
  /-- `BPP`, 32 bits (10_state.md rule R12). -/
  bpp : Word
  /-- `STATUS.RESULT`, `STATUS[3:0]` (10_state.md rule R14). -/
  result : BitVec 4
  /-- `STATUS.OOR`, `STATUS[4]` (10_state.md rule R15). -/
  oor : Bool
  /-- `phase` (10_state.md rule R17). -/
  phase : Phase
  /-- `idx`, 32 bits: the index of the next pixel the running PACK processes (10_state.md rule R18). -/
  idx : BitVec 32
  /-- `n_lat`, 32 bits (10_state.md rule R19). -/
  nLat : BitVec 32
  /-- `w_lat`, 16 bits (10_state.md rule R19). -/
  wLat : BitVec 16
  /-- `bpp_lat`, 6 bits (10_state.md rule R19). -/
  bppLat : BitVec 6
  /-- `oor_lat`, 1 bit (10_state.md rule R19). -/
  oorLat : Bool
  /-- The source port (20_memory.md rules R32 and R33). -/
  src : Source
  /-- What the outside world still has to do, the next first. -/
  pending : List Event
  /-- The responses given so far, in the order of the transactions (70_reset_and_hazards.md rule R153). -/
  responses : List Response
  deriving DecidableEq, Repr

/-- What stops the machine although no agent broke a duty. The spec has no such stop (60_exceptions.md rule R136:
nothing is stuck, nothing hangs), so each is a state that no run reaches. -/
inductive Fault where
  /-- Raised by the pixel-step when it would evaluate `div` or `mod` with a zero divisor (`w_lat` is 0, or
  `32 div bpp_lat` is 0 or undefined), to which 00_scope.md rule R9 gives no value. Safe: no run reaches it. -/
  | undefinedDivision
  /-- Raised by the engine when `idx` is beyond `n_lat`, for which 41_pack.md rule R96 has no step. Safe: no run
  reaches it. -/
  | engineOverrun
  deriving DecidableEq, Repr

/-- What the model gives no meaning to. -/
inductive Refusal where
  /-- Raised by `exec` for an instruction that has no meaning yet. Safe: nothing is claimed of it. -/
  | notModelled (mnemonic : String)
  /-- Raised by the pixel-step when the source provider does not deliver the byte it owes
  (40_host_access.md rule R79; 93_implementation_defined.md X2, treated as `refuse`). Safe: the run is outside
  the spec, and nothing can be proved of its continuation. -/
  | sourceByteMissing
  deriving DecidableEq, Repr

/-- A source port with no image: not available, so that nothing else of it means anything
(20_memory.md rule R33). -/
def Source.absent : Source where
  available := false
  indexed := false
  w := 0#16
  h := 0#16
  bytes := []

/-- The machine right after power-on reset (10_state.md rule R22; 70_reset_and_hazards.md rule R141): the whole
state of the block is zero. The parameters are the defaults. The ports are not the block's state (rule R21): no
image is presented, nothing is pending and nothing has been answered (notes/assumptions/2.md). -/
def State.reset : State where
  params := Config.Params.default
  bmp := []
  bpp := 0#32
  result := 0#4
  oor := false
  phase := .idle
  idx := 0#32
  nLat := 0#32
  wLat := 0#16
  bppLat := 0#6
  oorLat := false
  src := Source.absent
  pending := []
  responses := []

end Sys2Proof.Machine
end

