-- ==== Sys2Proof/Machine/Ops.lean ====
section
/-! DEFINITION. The named operations over the Bitmap Buffer, the registers and the ports; raising a result code
(60_exceptions.md rule R121, the nearest thing the block has to taking an exception, rule R131); reset. There is
no return from an exception to model (rule R132). -/
namespace Sys2Proof.Machine

/-! ### The Bitmap Buffer (20_memory.md rule R31) -/

/-- The canonical form: indices strictly rise, and no listed word is what an unlisted one reads as. -/
abbrev Memory.wf (m : Memory) : Prop :=
  m.Pairwise (fun c d => c.1 < d.1) ∧ ∀ c ∈ m, c.2 ≠ Memory.blank

/-- The word at index `k`. -/
def Memory.read : Memory → Nat → Word
  | [], _ => Memory.blank
  | (a, v) :: rest, k => if a = k then v else Memory.read rest k

/-- The same buffer with `v` at index `k`, in canonical form. -/
def Memory.write : Memory → Nat → Word → Memory
  | [], k, v => if v = Memory.blank then [] else [(k, v)]
  | (a, w) :: rest, k, v =>
    if k < a then
      if v = Memory.blank then (a, w) :: rest else (k, v) :: (a, w) :: rest
    else if k = a then
      if v = Memory.blank then rest else (k, v) :: rest
    else (a, w) :: Memory.write rest k v

/-- The buffer with every word 0. -/
def Memory.zero : Memory := []

/-- `BITMAP[k]`, whatever `k`. -/
def State.word (s : State) (k : Nat) : Word := s.bmp.read k

/-- `MemWrite(BMP, k, 4, v)` (00_scope.md section 6). -/
def State.setWord (s : State) (k : Nat) (v : Word) : State := { s with bmp := s.bmp.write k v }

/-- `MemRead(BMP, k, 4)` for an index that may name no word (20_memory.md rule R31). -/
def State.loadWord (s : State) (k : Nat) : Option Word :=
  if k < s.params.bufWords then some (s.word k) else none

/-- `MemWrite(BMP, k, 4, v)` for an index that may name no word (20_memory.md rule R31). -/
def State.storeWord (s : State) (k : Nat) (v : Word) : Option State :=
  if k < s.params.bufWords then some (s.setWord k v) else none

/-- Every word of the Bitmap Buffer becomes 0 (42_clear_reset.md rule R110). -/
def State.clearBitmap (s : State) : State := { s with bmp := Memory.zero }

/-! ### Registers -/

/-- `BPP <- v` (40_host_access.md rule R74). -/
def State.setBpp (s : State) (v : Word) : State := { s with bpp := v }

/-- The number of a result code (60_exceptions.md rule R122). -/
def ResultCode.bits : ResultCode → BitVec 4
  | .ok => 0#4
  | .unsupportedFormat => 1#4
  | .sourceUnavailable => 2#4
  | .invalidDepth => 3#4
  | .illegalCommand => 4#4
  | .addrRange => 5#4

/-- `STATUS.RESULT <- code` (42_clear_reset.md rule R113). -/
def State.setResult (s : State) (code : ResultCode) : State := { s with result := code.bits }

/-- `raise code`: `STATUS.RESULT` takes the code and nothing else changes (60_exceptions.md rule R121). -/
def State.raise (s : State) (code : ResultCode) : State := s.setResult code

/-! ### The host port -/

/-- The transaction in hand is answered with `r` (30_encoding.md rule R53). -/
def State.respond (s : State) (r : Response) : State := { s with responses := s.responses ++ [r] }

/-- `respond ERR`: nothing changes but that the host has its answer (60_exceptions.md rule R127). -/
def State.respondErr (s : State) : State := s.respond .err

/-- What the outside world still has to do becomes `events`. -/
def State.setPending (s : State) (events : List Event) : State := { s with pending := events }

/-- The source provider presents `src` (40_host_access.md rule R79). -/
def State.presentSource (s : State) (src : Source) : State := { s with src := src }

/-! ### Reset -/

/-- Every piece of the block's state becomes zero (10_state.md rule R22; 42_clear_reset.md rule R111). The
parameters and the ports are not the block's state and stay (10_state.md rule R21). -/
def State.blockReset (s : State) : State :=
  { s with
    bmp := Memory.zero
    bpp := 0#32
    result := 0#4
    oor := false
    phase := .idle
    idx := 0#32
    nLat := 0#32
    wLat := 0#16
    bppLat := 0#6
    oorLat := false }

/-- The start of a run (70_reset_and_hazards.md rule R153): parameters, the reset state, and what the outside
world will do. -/
def State.boot (p : Config.Params) (script : List Event) : State :=
  { State.reset with params := p, pending := script }

/-- The state in which the very next step takes the table row's word as a host transaction: the engine is idle,
so that the port accepts (40_host_access.md rule R70), and the request is the next thing the host does. -/
def State.offer (s : State) (q : Request) : State :=
  { s with phase := .idle, pending := .request q :: s.pending }

end Sys2Proof.Machine
end

