-- ==== Sys2Proof/Machine/Command.lean ====
section
/-! DEFINITION. The commands CLEAR, RESET and ILLEGAL (42_clear_reset.md rules R110 to R113). A command is
carried by a WR to CMD, whose response is always OK (30_encoding.md rule R53). -/
namespace Sys2Proof.Machine

/-- `CLEAR` (rule R110): every word 0, then RESULT is OK. -/
def execClear (s : State) : Host.Outcome State Fault Refusal :=
  .next ((s.clearBitmap.setResult .ok).respond .done)

/-- `RESET` (rule R111): the block's whole state is zero. -/
def execReset (s : State) : Host.Outcome State Fault Refusal :=
  .next (s.blockReset.respond .done)

/-- `ILLEGAL` (rule R112): the word is ignored; RESULT is IllegalCommand. -/
def execIllegal (_c : Word) (s : State) : Host.Outcome State Fault Refusal :=
  .next ((s.raise .illegalCommand).respond .done)

end Sys2Proof.Machine
end

