-- ==== Sys2Proof/Machine/Flags.lean ====
section
/-! DEFINITION. The two fields of STATUS, the block's only flags (10_state.md rules R13 to R15 and R20): how the
register reads and how a PACK's completion computes them. -/
namespace Sys2Proof.Machine

/-- `STATUS` as a RD returns it: `{0 (27 bits), OOR, RESULT}` (40_host_access.md rule R72). -/
def State.status (s : State) : Word := 0#27 ++ BitVec.ofBool s.oor ++ s.result

/-- The code of a completed PACK: AddrRange when it suppressed a write, else OK (41_pack.md rule R97). -/
def completionCode (oorLat : Bool) : ResultCode := if oorLat then .addrRange else .ok

/-- `STATUS.OOR <- STATUS.OOR | oor_lat`, sticky (10_state.md rule R15; 41_pack.md rule R97). -/
def stickyOor (oor oorLat : Bool) : Bool := oor || oorLat

end Sys2Proof.Machine
end

