-- ==== Sys2Proof/Machine/Mapper.lean ====
section
/-! DEFINITION. The tile address mapper (41_pack.md section 3, rules R85 to R89): arithmetic on naturals. -/
namespace Sys2Proof.Machine

/-- `x = i mod W`, the pixel's column (rule R85). -/
def pixelX (i w : Nat) : Nat := i % w

/-- `y = i div W`, the pixel's row (rule R85). -/
def pixelY (i w : Nat) : Nat := i / w

/-- `x' = x + (y div 8) * W`: the column after the strips are laid side by side (rule R85). -/
def stripX (i w : Nat) : Nat := pixelX i w + pixelY i w / 8 * w

/-- `y' = y mod 8`: the row inside the strip (rule R85). -/
def stripY (i w : Nat) : Nat := pixelY i w % 8

/-- `pos = (x' mod 8) + y' * 8 + (x' div 8) * 64` (rule R86). -/
def tilePosition (x' y' : Nat) : Nat := x' % 8 + y' * 8 + x' / 8 * 64

/-- `TileAddr(i, W)`, for `W >= 1` (rule R88). -/
def tileAddr (i w : Nat) : Nat := tilePosition (stripX i w) (stripY i w)

/-- The source index that lands at `pos`, the inverse of rule R89(a). -/
def tileIndex (pos w : Nat) : Nat :=
  let c := pos % 8
  let r := pos / 8 % 8
  let t := pos / 64
  let x' := 8 * t + c
  let s := x' / w
  let x := x' % w
  let y := 8 * s + r
  y * w + x

end Sys2Proof.Machine
end

