-- ==== Sys2Proof/Machine/Packer.lean ====
section
/-! DEFINITION. The bit-packer (41_pack.md section 4, rules R90 to R94) and the reading back of a field (section
6, rule R100): arithmetic on naturals. -/
namespace Sys2Proof.Machine

/-- The legal bit depths (00_scope.md rule R7; 10_state.md rule R12). -/
def legalDepths : List Nat := [1, 2, 4, 8, 16, 32]

/-- Whether a depth is legal (41_pack.md rule R82, check 3). -/
def legalDepth (bpp : Nat) : Bool := legalDepths.contains bpp

/-- `Bpi(bpp) = 32 div bpp`, pixels per word (rule R90). -/
def bpi (bpp : Nat) : Nat := 32 / bpp

/-- `Mask(bpp) = 2^bpp - 1`, as a natural number (rule R92). -/
def mask (bpp : Nat) : Nat := 2 ^ bpp - 1

/-- `k = pos div bpi`, the target word index (rule R91). -/
def wordIndex (pos bpp : Nat) : Nat := pos / bpi bpp

/-- `sh = (pos mod bpi) * bpp`, the bit shift (rule R91). -/
def fieldShift (pos bpp : Nat) : Nat := pos % bpi bpp * bpp

/-- `f = (v & Mask(bpp)) << sh` (rules R92 and R93). -/
def fieldValue (pos bpp v : Nat) : Nat := (v &&& mask bpp) <<< fieldShift pos bpp

/-- A packed pixel: the triple `(k, sh, f)` of rule R93. -/
structure PixelField where
  /-- `k`. -/
  word : Nat
  /-- `sh`. -/
  shift : Nat
  /-- `f`. -/
  value : Nat
  deriving DecidableEq, Repr

/-- `Field(pos, bpp, v)` (rule R93). -/
def packField (pos bpp v : Nat) : PixelField where
  word := wordIndex pos bpp
  shift := fieldShift pos bpp
  value := fieldValue pos bpp v

end Sys2Proof.Machine
end

