-- ==== Sys2Proof/Machine/Operands.lean ====
section
/-! DEFINITION. The operands: the window's word index for the host (30_encoding.md rule R55), and what PACK reads
(41_pack.md rule R81): the descriptor, the depth, the pixel count and the source bytes. -/
namespace Sys2Proof.Machine

/-- The window's word index as a natural, zero-extended (30_encoding.md rule R55). -/
def windowWord (k : BitVec 31) : Nat := k.toNat

/-- `MemRead(SRC, i, 1)`, or nothing where the provider delivers no byte `i` (20_memory.md rule R32). -/
def Source.byte? (src : Source) (i : Nat) : Option Nat := (src.bytes[i]?).map BitVec.toNat

/-- `N = min(W * H, CAP_PIXELS)` (41_pack.md rule R84). -/
def Source.pixelCount (src : Source) (capPixels : Nat) : Nat := min (src.w.toNat * src.h.toNat) capPixels

/-- `N` for the source now presented. -/
def State.pixelCount (s : State) : Nat := s.src.pixelCount s.params.capPixels

/-- The packed form of the pixel at source index `i` with byte `v` (41_pack.md rule R95). -/
def pixelField (w bpp i v : Nat) : PixelField := packField (tileAddr i w) bpp v

/-- PACK's acceptance checks in their order: the first that fails names the code (41_pack.md rule R82). -/
def State.packCheck (s : State) : Option ResultCode :=
  if s.src.available = false then some .sourceUnavailable
  else if s.src.indexed = false then some .unsupportedFormat
  else if legalDepth s.bpp.toNat = false then some .invalidDepth
  else none

end Sys2Proof.Machine
end

