-- ==== Sys2Proof/Machine/Pack.lean ====
section
/-! DEFINITION. The PACK command (41_pack.md rules R80 to R97): acceptance, the engine's pixel-steps and the
completion; and the same PACK as one transition (rule R98). -/
namespace Sys2Proof.Machine

/-! ### Acceptance -/

/-- The PACK is accepted: the latches are written and the engine starts (rule R83). -/
def State.accept (s : State) : State :=
  { s with
    nLat := BitVec.ofNat 32 s.pixelCount
    wLat := s.src.w
    bppLat := s.bpp.setWidth 6
    oorLat := false
    idx := 0#32
    phase := .packing }

/-- `PACK` (rules R80 to R83): raise the first failing check's code, or accept. The response says only that the
command word was delivered (40_host_access.md rule R71; notes/assumptions/3.md). The engine then runs
`engineStep` until the PACK ends. -/
def execPack (s : State) : Host.Outcome State Fault Refusal :=
  match s.packCheck with
  | some code => .next ((s.raise code).respond .done)
  | none => .next (s.accept.respond .done)

/-! ### The engine -/

/-- The framebuffer writer (rule R95): OR the field into its word, or suppress the write and mark it. -/
def State.mergeField (s : State) (p : PixelField) : State :=
  if p.word < s.params.bufWords then
    s.setWord p.word (s.word p.word ||| BitVec.ofNat 32 p.value)
  else { s with oorLat := true }

/-- Source byte `v` of index `i` is packed with the latched width and depth and merged (rule R95). -/
def State.mergePixel (s : State) (i v : Nat) : State :=
  s.mergeField (pixelField s.wLat.toNat s.bppLat.toNat i v)

/-- `idx <- idx + 1` (rule R96). -/
def State.advance (s : State) : State := { s with idx := s.idx + 1#32 }

/-- The latched values with which rules R85 to R91 divide by nothing but numbers of at least 1. -/
def State.divisible (s : State) : Bool := s.wLat != 0#16 && bpi s.bppLat.toNat != 0

/-- The engine's step while pixels are left: the pixel-step for `i = idx`, then `idx <- idx + 1` (rule R96). -/
def pixelStep (s : State) : Host.Outcome State Fault Refusal :=
  if s.divisible = false then .fault .undefinedDivision
  else
    match s.src.byte? s.idx.toNat with
    | none => .refused .sourceByteMissing
    | some v => .next (s.mergePixel s.idx.toNat v).advance

/-- The completion (rule R97). -/
def State.complete (s : State) : State :=
  { s with
    oor := stickyOor s.oor s.oorLat
    result := (completionCode s.oorLat).bits
    idx := 0#32
    phase := .idle }

/-- One step of the engine while `phase` is PACKING (rule R96). -/
def engineStep (s : State) : Host.Outcome State Fault Refusal :=
  if s.idx < s.nLat then pixelStep s
  else if s.idx = s.nLat then .next s.complete
  else .fault .engineOverrun

/-! ### The whole image at once (rule R98) -/

/-- The byte of index `i`, for an index the provider delivers. -/
def Source.byte (src : Source) (i : Nat) : Nat := (src.byte? i).getD 0

/-- The packed form of pixel `i` of a source at a depth. -/
def Source.field (src : Source) (bpp i : Nat) : PixelField :=
  pixelField src.w.toNat bpp i (src.byte i)

/-- `P(src, bpp)[k]`: the OR of the fields, over the first `n` pixels, whose word index is `k`. -/
def Source.packedWord (src : Source) (bpp n k : Nat) : Word :=
  (List.range n).foldl
    (fun acc i => if (src.field bpp i).word = k then acc ||| BitVec.ofNat 32 (src.field bpp i).value else acc)
    0#32

/-- `Oor(src, bpp)`: some pixel of the first `n` has its word index at or beyond `BUF_WORDS`. -/
def Source.outOfRange (src : Source) (bpp n bufWords : Nat) : Bool :=
  (List.range n).any (fun i => decide (bufWords ≤ (src.field bpp i).word))

/-- The pixels of `order` merged one after another, in that order. -/
def State.mergeAll (s : State) (order : List Nat) : State :=
  order.foldl (fun t i => t.mergePixel i (t.src.byte i)) s

/-- `Unpack(B, pos, bpp)` (rule R100): the value held in the field of position `pos`. -/
def unpack (m : Memory) (pos bpp : Nat) : Nat :=
  ((m.read (wordIndex pos bpp)).toNat >>> fieldShift pos bpp) &&& mask bpp

end Sys2Proof.Machine
end

