-- ==== Sys2Proof/Machine/HostAccess.lean ====
section
/-! DEFINITION. The host access instructions (40_host_access.md rules R71 to R77), each for a transaction the port
has accepted (rule R70; `Machine/Sequencer.lean` says when that is). -/
namespace Sys2Proof.Machine

/-- `WR.CMD` (rule R71): do the command that the word encodes; the command's own response is this one's. -/
def execWrCmd (c : Word) (s : State) : Host.Outcome State Fault Refusal :=
  match decodeCommand c with
  | .clear => execClear s
  | .pack => execPack s
  | .reset => execReset s
  | .illegal w => execIllegal w s

/-- `RD.STATUS` (rule R72). -/
def execRdStatus (s : State) : Host.Outcome State Fault Refusal :=
  .next (s.respond (.data s.status))

/-- `RD.BPP` (rule R73). -/
def execRdBpp (s : State) : Host.Outcome State Fault Refusal :=
  .next (s.respond (.data s.bpp))

/-- `WR.BPP` (rule R74): stored whole, not validated. -/
def execWrBpp (wdata : Word) (s : State) : Host.Outcome State Fault Refusal :=
  .next ((s.setBpp wdata).respond .done)

/-- `RD.BMP` (rule R75). -/
def execRdBmp (k : BitVec 31) (s : State) : Host.Outcome State Fault Refusal :=
  match s.loadWord (windowWord k) with
  | some v => .next (s.respond (.data v))
  | none => .next s.respondErr

/-- `WR.BMP` (rule R76): the whole word is replaced. -/
def execWrBmp (k : BitVec 31) (wdata : Word) (s : State) : Host.Outcome State Fault Refusal :=
  match s.storeWord (windowWord k) wdata with
  | some t => .next (t.respond .done)
  | none => .next s.respondErr

/-- `ERR` (rule R77): the request is not permitted, whatever it is. -/
def execErr (_rw : Rw) (_addr _wdata : Word) (s : State) : Host.Outcome State Fault Refusal :=
  .next s.respondErr

end Sys2Proof.Machine
end

