-- ==== Sys2Proof/Machine/Dispatch.lean ====
section
/-! DEFINITION. One arm per constructor of `Instr`, each one direct call of its meaning. -/
namespace Sys2Proof.Machine

def exec (i : Instr) (s : State) : Host.Outcome State Fault Refusal :=
  match i with
  -- format H
  | .wrCmd c => Sys2Proof.Machine.execWrCmd c s
  | .rdStatus => Sys2Proof.Machine.execRdStatus s
  | .rdBpp => Sys2Proof.Machine.execRdBpp s
  | .wrBpp wdata => Sys2Proof.Machine.execWrBpp wdata s
  | .rdBmp k => Sys2Proof.Machine.execRdBmp k s
  | .wrBmp k wdata => Sys2Proof.Machine.execWrBmp k wdata s
  | .err rw addr wdata => Sys2Proof.Machine.execErr rw addr wdata s
  -- format C
  | .clear => Sys2Proof.Machine.execClear s
  | .pack => Sys2Proof.Machine.execPack s
  | .reset => Sys2Proof.Machine.execReset s
  | .illegal c => Sys2Proof.Machine.execIllegal c s

end Sys2Proof.Machine
end

