-- ==== Sys2Proof/Machine/Sequencer.lean ====
section
/-! DEFINITION. Who moves next. Exactly one of host and engine acts at a time (00_scope.md rule R8; 20_memory.md
rule R40): while `phase` is PACKING the engine moves and the port holds every transaction (40_host_access.md rule
R70); power-on reset may come at any time (70_reset_and_hazards.md rule R142). -/
namespace Sys2Proof.Machine

/-- The next move of the system. -/
inductive Move where
  /-- The port accepts a transaction; `i` is the operation it decodes to, to be executed in `t`. -/
  | execute (i : Instr) (t : State)
  /-- The engine takes a step in `t`. -/
  | engine (t : State)
  /-- Nothing is left to compute: the next state is `t`. -/
  | arrive (t : State)
  deriving DecidableEq, Repr

/-- The move while the engine is idle: the outside world's next event happens; with none left the block stays as
it is (60_exceptions.md rule R135). -/
def idleMove (s : State) : Move :=
  match s.pending with
  | [] => .arrive s
  | .request q :: rest => .execute (decode q) (s.setPending rest)
  | .present src :: rest => .arrive ((s.setPending rest).presentSource src)
  | .powerOn _ :: rest => .arrive (s.setPending rest).blockReset

/-- The move while a PACK runs: the engine's step, unless power-on reset is due (70_reset_and_hazards.md rule
R142). A transaction waits, unchanged (40_host_access.md rule R70), and the source provider keeps its image
(20_memory.md rule R34). -/
def packingMove (s : State) : Move :=
  match s.pending with
  | [] => .engine s
  | .request _ :: _ => .engine s
  | .present _ :: _ => .engine s
  | .powerOn 0 :: rest => .arrive (s.setPending rest).blockReset
  | .powerOn (n + 1) :: rest => .engine (s.setPending (.powerOn n :: rest))

/-- The next move. -/
def nextMove (s : State) : Move :=
  match s.phase with
  | .idle => idleMove s
  | .packing => packingMove s

end Sys2Proof.Machine
end

