-- ==== Sys2Proof/Machine/Step.lean ====
section
/-! DEFINITION. One step of the machine, and the state in which the next step runs a given instruction. -/
namespace Sys2Proof.Machine

/-- One step: an accepted transaction, one step of the engine, or one event from outside. -/
def step (s : State) : Host.Outcome State Fault Refusal :=
  match nextMove s with
  | .execute i t => exec i t
  | .engine t => engineStep t
  | .arrive t => .next t

/-- The block fetches no instruction (20_memory.md rule R43): what its next step runs is the transaction the host
issues next. So the instruction is put there, and the engine is idle, so that the port accepts it. A command word
is put there as the data of a WR to CMD. -/
def State.withFetchWord (s : State) (nbits w : Nat) : State :=
  s.offer (tableRequest nbits w)

end Sys2Proof.Machine
end

