-- ==== Sys2Proof/Safety.lean ====
section
/-! DEFINITION. What holds in every reachable state (10_state.md rule R23), what the source provider owes
(40_host_access.md rule R79), and what is observed of a run (70_reset_and_hazards.md rule R153). -/
namespace Sys2Proof.Safety

open Sys2Proof.Machine

/-- The Bitmap Buffer is in canonical form and lists no index that names no word (20_memory.md rule R31). -/
abbrev BitmapLegal (s : State) : Prop :=
  s.bmp.wf ∧ ∀ c ∈ s.bmp, c.1 < s.params.bufWords

/-- While PACKING the engine's registers are as rule R23 says. -/
abbrev PackingLegal (s : State) : Prop :=
  s.phase = .packing →
    legalDepth s.bppLat.toNat = true ∧ s.idx ≤ s.nLat ∧ s.nLat.toNat ≤ s.params.capPixels
      ∧ s.nLat.toNat ≤ s.wLat.toNat * 65535

/-- 10_state.md rule R23, with the constraint on the parameters and the form of the Bitmap Buffer. -/
abbrev Invariant (s : State) : Prop :=
  s.params.legal ∧ BitmapLegal s ∧ s.result ≤ 5#4 ∧ PackingLegal s ∧ (s.phase = .idle → s.idx = 0#32)

/-- While PACKING the latches are still what the source port and BPP show (41_pack.md rule R83; 20_memory.md rule
R34): nothing else moves while the engine runs. -/
abbrev LatchesCurrent (s : State) : Prop :=
  s.phase = .packing →
    s.src.available = true ∧ s.src.indexed = true ∧ s.wLat = s.src.w ∧ s.bppLat.toNat = s.bpp.toNat
      ∧ s.nLat.toNat = s.pixelCount

/-- The provider's duty for one source (40_host_access.md rule R79): when it is available and indexed, the bytes
PACK may read are there. -/
abbrev Supplied (src : Source) (capPixels : Nat) : Prop :=
  src.available = true → src.indexed = true → src.pixelCount capPixels ≤ src.bytes.length

/-- The duty for what an event presents. -/
abbrev EventSupplied (capPixels : Nat) (e : Event) : Prop :=
  match e with
  | .present src => Supplied src capPixels
  | .request _ => True
  | .powerOn _ => True

/-- The provider keeps its duty: for the source now presented and for every one still to come. -/
def Dutiful (s : State) : Prop :=
  Supplied s.src s.params.capPixels ∧ ∀ e ∈ s.pending, EventSupplied s.params.capPixels e

/-- Power-on reset is not the next thing the outside world does. -/
abbrev NoResetDue (events : List Event) : Prop :=
  match events with
  | .powerOn _ :: _ => False
  | [] => True
  | .request _ :: _ => True
  | .present _ :: _ => True

/-- Everything a PACK needs to run to its end: a state as rule R23 has it, an idle engine, acceptance checks that
pass (41_pack.md rule R82), a provider that keeps its duty, and the PACK as the host's next transaction, with no
power-on reset right behind it. -/
abbrev PackReady (s : State) (rest : List Event) : Prop :=
  Invariant s ∧ s.phase = .idle ∧ s.packCheck = none ∧ Supplied s.src s.params.capPixels
    ∧ s.pending = .request ⟨.wr, 0x00000000#32, 0x00000002#32⟩ :: rest ∧ NoResetDue rest

/-- Whether an event is a host transaction, which is owed a response. -/
def isRequest : Event → Bool
  | .request _ => true
  | .present _ => false
  | .powerOn _ => false

/-- A run has ended: the last transaction is answered and the engine is idle (rule R153). -/
abbrev Ended (s : State) : Prop := s.pending = [] ∧ s.phase = .idle

/-- What is observed of a run (rule R153): the responses and the final BITMAP, BPP and STATUS. -/
structure Observation where
  responses : List Response
  bitmap : Memory
  bpp : Word
  status : Word
  deriving DecidableEq, Repr

/-- The observation of a state. -/
def observe (s : State) : Observation where
  responses := s.responses
  bitmap := s.bmp
  bpp := s.bpp
  status := s.status

/-- The state with the engine's hidden registers at zero. No transaction reads them (rule R153). -/
def eraseHidden (s : State) : State :=
  { s with idx := 0#32, nLat := 0#32, wLat := 0#16, bppLat := 0#6, oorLat := false }

/-- Two idle states that differ only in the engine's hidden registers, or two equal states. -/
def SameVisible (s t : State) : Prop :=
  s = t ∨ (s.phase = .idle ∧ eraseHidden s = eraseHidden t)

end Sys2Proof.Safety
end

