-- ==== Sys2Proof/Certificates/Slice0/Obligations.lean ====
section
/-! DEFINITION. The statements for the provers. Each docstring names the rule of spec/ it formalises. A clause
`{ t with f := s.f, … } = s` says that `t` differs from `s` in no field but those named. `Host.Core.run core k s`
is `k` steps of the machine from `s`. -/

open Sys2Proof Sys2Proof.Machine Sys2Proof.Safety

/-! ### Host access -/

/-- 40_host_access.md rule R72: RD.STATUS answers `{0 (27 bits), OOR, RESULT}` and changes nothing else; 0 after
reset; 3 after a PACK that failed with InvalidDepth when OOR was 0; 0x15 when OOR is 1 and RESULT is 5. -/
def Obligations.RdStatusReturnsTheStatusWord : Prop :=
  (∀ wdata, decode ⟨.rd, 0x00000001#32, wdata⟩ = .rdStatus) ∧
  (∀ s : State, exec .rdStatus s =
    .next { s with responses := s.responses ++ [.data (0#27 ++ BitVec.ofBool s.oor ++ s.result)] }) ∧
  exec .rdStatus State.reset = .next { State.reset with responses := [.data 0x00000000#32] } ∧
  (∀ s : State, s.packCheck = some .invalidDepth → s.oor = false →
    ∃ t, exec .pack s = .next t ∧
      exec .rdStatus t = .next { t with responses := t.responses ++ [.data 0x00000003#32] }) ∧
  (∀ s : State, s.oor = true → s.result = 5#4 →
    exec .rdStatus s = .next { s with responses := s.responses ++ [.data 0x00000015#32] })

/-- 40_host_access.md rule R73: RD.BPP answers what was last written, legal or not, and changes nothing else. -/
def Obligations.RdBppReturnsTheDepthLastWritten : Prop :=
  (∀ wdata, decode ⟨.rd, 0x00000002#32, wdata⟩ = .rdBpp) ∧
  (∀ s : State, exec .rdBpp s = .next { s with responses := s.responses ++ [.data s.bpp] }) ∧
  (∀ (s : State) (v : Word), ∃ t, exec (.wrBpp v) s = .next t ∧
    exec .rdBpp t = .next { t with responses := t.responses ++ [.data v] }) ∧
  exec .rdBpp State.reset = .next { State.reset with responses := [.data 0x00000000#32] }

/-- 40_host_access.md rule R74: WR.BPP stores the data whole, whatever it is, and changes nothing else; with an
available, indexed source the next PACK fails with InvalidDepth when the stored depth is not legal. -/
def Obligations.WrBppStoresAnyDepthUnchecked : Prop :=
  (∀ v, decode ⟨.wr, 0x00000002#32, v⟩ = .wrBpp v) ∧
  (∀ (s : State) (v : Word), exec (.wrBpp v) s =
    .next { s with bpp := v, responses := s.responses ++ [.done] }) ∧
  (∀ (s : State) (v : Word), s.src.available = true → s.src.indexed = true → v.toNat ∉ [1, 2, 4, 8, 16, 32] →
    ∃ t, exec (.wrBpp v) s = .next t ∧
      exec .pack t = .next { t with result := 3#4, responses := t.responses ++ [.done] })

/-- 40_host_access.md rule R75: RD.BMP answers word `k` whole when `k < BUF_WORDS` and ERR otherwise, and changes
nothing else. -/
def Obligations.RdBmpReturnsTheWordOrErr : Prop :=
  (∀ (k : BitVec 31) (wdata : Word), decode ⟨.rd, 1#1 ++ k, wdata⟩ = .rdBmp k) ∧
  (∀ (s : State) (k : BitVec 31), exec (.rdBmp k) s =
    .next { s with responses := s.responses ++
      [if k.toNat < s.params.bufWords then .data (s.bmp.read k.toNat) else .err] })

/-- 40_host_access.md rule R76: WR.BMP replaces word `k` whole and no other word when `k < BUF_WORDS`; otherwise it
gets ERR and nothing changes. -/
def Obligations.WrBmpReplacesOneWholeWord : Prop :=
  (∀ (k : BitVec 31) (v : Word), decode ⟨.wr, 1#1 ++ k, v⟩ = .wrBmp k v) ∧
  (∀ (s : State) (k : BitVec 31) (v : Word), s.bmp.wf → k.toNat < s.params.bufWords →
    ∃ t, exec (.wrBmp k v) s = .next t ∧
      (∀ j, t.bmp.read j = if j = k.toNat then v else s.bmp.read j) ∧
      t.responses = s.responses ++ [.done] ∧
      { t with bmp := s.bmp, responses := s.responses } = s) ∧
  (∀ (s : State) (k : BitVec 31) (v : Word), s.params.bufWords ≤ k.toNat →
    exec (.wrBmp k v) s = .next { s with responses := s.responses ++ [.err] })

/-- 40_host_access.md rule R77 and 30_encoding.md rule R57: exactly the requests outside the address map get ERR,
and such a request changes nothing. Every request is executed with one response in that very step; that this is so of
a WR to CMD whose PACK is accepted is the model's choice (notes/assumptions/3.md). -/
def Obligations.OnlyRequestsOutsideTheMapGetErr : Prop :=
  (∀ (rw : Rw) (a v : Word) (s : State),
    exec (.err rw a v) s = .next { s with responses := s.responses ++ [.err] }) ∧
  (∀ (q : Request) (s : State), ∃ t r, exec (decode q) s = .next t ∧ t.responses = s.responses ++ [r] ∧
    (r = .err ↔
      (q.rw = .rd ∧ q.addr = 0x00000000#32) ∨ (q.rw = .wr ∧ q.addr = 0x00000001#32) ∨
      (0x00000003 ≤ q.addr.toNat ∧ q.addr.toNat ≤ 0x7FFFFFFF) ∨
      0x80000000 + s.params.bufWords ≤ q.addr.toNat) ∧
    (r = .err → { t with responses := s.responses } = s))

/-- 40_host_access.md rule R71: a WR to CMD does the command its data encodes and always gets the response OK. That
the response of an accepted PACK is given at acceptance is the model's choice (notes/assumptions/3.md). -/
def Obligations.WrCmdDoesTheCommandItCarries : Prop :=
  (∀ c, decode ⟨.wr, 0x00000000#32, c⟩ = .wrCmd c) ∧
  (∀ s, exec (.wrCmd 0x00000001#32) s = exec .clear s) ∧
  (∀ s, exec (.wrCmd 0x00000002#32) s = exec .pack s) ∧
  (∀ s, exec (.wrCmd 0x00000003#32) s = exec .reset s) ∧
  (∀ (c : Word) (s : State), c ≠ 0x00000001#32 → c ≠ 0x00000002#32 → c ≠ 0x00000003#32 →
    exec (.wrCmd c) s = exec (.illegal c) s) ∧
  (∀ (c : Word) (s : State), ∃ t, exec (.wrCmd c) s = .next t ∧ t.responses = s.responses ++ [.done])

/-- 40_host_access.md rule R78: a read changes nothing but the host's record of responses, and what it answers does
not depend on that record, so that two identical reads with only reads between them answer the same. -/
def Obligations.ReadsChangeNothingAndRepeat : Prop :=
  ∀ (i : Instr) (s : State), (i = .rdStatus ∨ i = .rdBpp ∨ ∃ k, i = .rdBmp k) →
    ∃ r, ∀ past, exec i { s with responses := past } = .next { s with responses := past ++ [r] }

/-- 42_clear_reset.md rule R113, last sentence: no RD and no WR to an address other than CMD changes STATUS. -/
def Obligations.OnlyCommandsWriteStatus : Prop :=
  ∀ (q : Request) (s : State), ¬(q.rw = .wr ∧ q.addr = 0x00000000#32) →
    ∃ t, exec (decode q) s = .next t ∧ t.status = s.status ∧ t.phase = s.phase

/-! ### CLEAR, RESET and the illegal command word -/

/-- 42_clear_reset.md rule R110: CLEAR makes every word 0 and RESULT OK, and changes nothing else; twice is as
once. -/
def Obligations.ClearZeroesTheBufferAlone : Prop :=
  decodeBits (.formatC 0x00000001#32) = .clear ∧
  (∀ s, exec (.wrCmd 0x00000001#32) s = exec .clear s) ∧
  (∀ s : State, ∃ t, exec .clear s = .next t ∧
    (∀ k, t.bmp.read k = 0#32) ∧ t.result = 0#4 ∧ t.responses = s.responses ++ [.done] ∧
    { t with bmp := s.bmp, result := s.result, responses := s.responses } = s ∧
    exec .clear t = .next { t with responses := t.responses ++ [.done] })

/-- 42_clear_reset.md rule R111: RESET makes the block's state the power-on state (every field of `State.reset`
but the parameters and the ports); it is idempotent, and a PACK right after it, of an available, indexed source,
fails with InvalidDepth. No other command word clears OOR when it is delivered. -/
def Obligations.ResetRestoresTheResetState : Prop :=
  decodeBits (.formatC 0x00000003#32) = .reset ∧
  (∀ s, exec (.wrCmd 0x00000003#32) s = exec .reset s) ∧
  (∀ s : State, ∃ t, exec .reset s = .next t ∧
    t = { State.reset with
            params := s.params, src := s.src, pending := s.pending, responses := s.responses ++ [.done] } ∧
    exec .reset t = .next { t with responses := t.responses ++ [.done] } ∧
    (s.src.available = true → s.src.indexed = true →
      exec .pack t = .next { t with result := 3#4, responses := t.responses ++ [.done] })) ∧
  (∀ (c : Word) (s t : State), exec (.wrCmd c) s = .next t → s.oor = true → t.oor = false → c = 0x00000003#32)

/-- 42_clear_reset.md rule R112: every command word but 1, 2 and 3 sets RESULT to 4 and changes nothing else, and
the WR to CMD that carried it gets OK. -/
def Obligations.IllegalCommandWordsOnlySetTheCode : Prop :=
  (∀ c : Word, c ≠ 0x00000001#32 → c ≠ 0x00000002#32 → c ≠ 0x00000003#32 →
    decodeBits (.formatC c) = .illegal c ∧
    ∀ s : State, exec (.wrCmd c) s = .next { s with result := 4#4, responses := s.responses ++ [.done] }) ∧
  (∀ (c : Word) (s : State),
    exec (.illegal c) s = .next { s with result := 4#4, responses := s.responses ++ [.done] })

/-! ### PACK: acceptance and engine steps -/

/-- 41_pack.md rule R82: the acceptance checks, in their order; a failed PACK sets RESULT and changes nothing
else. -/
def Obligations.PackFailsWithItsFirstFailingCheck : Prop :=
  (∀ s : State, s.src.available = false →
    exec .pack s = .next { s with result := 2#4, responses := s.responses ++ [.done] }) ∧
  (∀ s : State, s.src.available = true → s.src.indexed = false →
    exec .pack s = .next { s with result := 1#4, responses := s.responses ++ [.done] }) ∧
  (∀ s : State, s.src.available = true → s.src.indexed = true → s.bpp.toNat ∉ [1, 2, 4, 8, 16, 32] →
    exec .pack s = .next { s with result := 3#4, responses := s.responses ++ [.done] })

/-- 41_pack.md rules R83 and R84: when the checks pass the PACK is accepted, with the latches at W, BPP and
`min(W * H, CAP_PIXELS)`, and nothing else changes. That the response is given at acceptance is the model's choice
(notes/assumptions/3.md). -/
def Obligations.PackAcceptanceLatchesItsOperands : Prop :=
  ∀ s : State, s.src.available = true → s.src.indexed = true → s.bpp.toNat ∈ [1, 2, 4, 8, 16, 32] →
    ∃ t, exec .pack s = .next t ∧
      t.wLat = s.src.w ∧ t.bppLat.toNat = s.bpp.toNat ∧
      t.nLat.toNat = min (s.src.w.toNat * s.src.h.toNat) s.params.capPixels ∧
      t.oorLat = false ∧ t.idx = 0#32 ∧ t.phase = .packing ∧ t.responses = s.responses ++ [.done] ∧
      { t with wLat := s.wLat, bppLat := s.bppLat, nLat := s.nLat, oorLat := s.oorLat, idx := s.idx,
               phase := s.phase, responses := s.responses } = s

/-- 41_pack.md rules R85, R86, R91, R92, R93, R95 and R96: one pixel-step ORs the masked, shifted byte of index
`idx` into its word, or suppresses the write and marks it; then `idx` is one more. -/
def Obligations.PixelStepOrsOneFieldIntoItsWord : Prop :=
  ∀ (s : State) (v : Byte) (x y x' y' pos bpi k sh f : Nat),
    s.bmp.wf → s.idx < s.nLat → s.wLat.toNat ≠ 0 → s.bppLat.toNat ∈ [1, 2, 4, 8, 16, 32] →
    s.src.bytes[s.idx.toNat]? = some v →
    x = s.idx.toNat % s.wLat.toNat → y = s.idx.toNat / s.wLat.toNat →
    x' = x + y / 8 * s.wLat.toNat → y' = y % 8 →
    pos = x' % 8 + y' * 8 + x' / 8 * 64 →
    bpi = 32 / s.bppLat.toNat → k = pos / bpi → sh = pos % bpi * s.bppLat.toNat →
    f = (v.toNat &&& (2 ^ s.bppLat.toNat - 1)) <<< sh →
    ∃ t, engineStep s = .next t ∧ t.idx.toNat = s.idx.toNat + 1 ∧
      (if k < s.params.bufWords then
        (∀ j, (t.bmp.read j).toNat = if j = k then (s.bmp.read j).toNat ||| f else (s.bmp.read j).toNat) ∧
          t.oorLat = s.oorLat
       else t.bmp = s.bmp ∧ t.oorLat = true) ∧
      { t with bmp := s.bmp, oorLat := s.oorLat, idx := s.idx } = s

/-- 41_pack.md rule R97: the completion sets OOR, RESULT, idx and phase and changes nothing else. That it gives no
response either is the model's choice (notes/assumptions/3.md). -/
def Obligations.CompletionReportsAndIdles : Prop :=
  ∀ s : State, s.idx = s.nLat →
    engineStep s = .next { s with
      oor := s.oor || s.oorLat, result := if s.oorLat then 5#4 else 0#4, idx := 0#32, phase := .idle }

/-- 41_pack.md rule R102: neither the step that accepts or fails a PACK nor any step of the engine clears a bit of
the buffer, writes BPP, or changes anything outside the block; and of what is outside the block both read the source
port alone: what is pending and what has been answered make no difference to them. That the response of an accepted
PACK is given at acceptance, and none by the engine, is the model's choice (notes/assumptions/3.md). -/
def Obligations.PackNeverClearsABit : Prop :=
  (∀ s t : State, exec .pack s = .next t →
    t.bmp = s.bmp ∧ t.bpp = s.bpp ∧ t.params = s.params ∧ t.src = s.src ∧ t.pending = s.pending ∧
    t.responses = s.responses ++ [.done]) ∧
  (∀ s t : State, s.bmp.wf → engineStep s = .next t →
    (∀ k, s.bmp.read k &&& t.bmp.read k = s.bmp.read k) ∧
    t.bpp = s.bpp ∧ t.params = s.params ∧ t.src = s.src ∧ t.pending = s.pending ∧ t.responses = s.responses) ∧
  (∀ (s : State) (events : List Event) (past : List Response),
    (∃ t, exec .pack s = .next t ∧
      exec .pack { s with pending := events, responses := past } =
        .next { t with pending := events, responses := past ++ [.done] }) ∧
    (∀ t, engineStep s = .next t →
      engineStep { s with pending := events, responses := past } =
        .next { t with pending := events, responses := past }) ∧
    (∀ f, engineStep s = .fault f → engineStep { s with pending := events, responses := past } = .fault f) ∧
    (∀ r, engineStep s = .refused r → engineStep { s with pending := events, responses := past } = .refused r))

/-! ### PACK as a whole -/

/-- 41_pack.md rule R98 with the counts of rule R96: after the accepting step, N pixel-steps and one completion
step, an accepted PACK has ORed `P(src, bpp)` into the buffer, set OOR and RESULT by `Oor(src, bpp)`, left the
latches at the image's values (rule R97) and changed nothing else. -/
def Obligations.PackReachesTheOneTransitionState : Prop :=
  ∀ (s : State) (rest : List Event), PackReady s rest →
    ∃ t, Host.Core.run core (s.pixelCount + 2) s = .next t ∧
      (∀ k, t.bmp.read k =
        if k < s.params.bufWords then s.bmp.read k ||| s.src.packedWord s.bpp.toNat s.pixelCount k
        else s.bmp.read k) ∧
      t.oor = (s.oor || s.src.outOfRange s.bpp.toNat s.pixelCount s.params.bufWords) ∧
      t.result = (if s.src.outOfRange s.bpp.toNat s.pixelCount s.params.bufWords then 5#4 else 0#4) ∧
      t.nLat.toNat = s.pixelCount ∧ t.wLat = s.src.w ∧ t.bppLat.toNat = s.bpp.toNat ∧
      t.oorLat = s.src.outOfRange s.bpp.toNat s.pixelCount s.params.bufWords ∧
      t.pending = rest ∧ t.responses = s.responses ++ [.done] ∧ t.phase = .idle ∧ t.idx = 0#32 ∧
      t.bpp = s.bpp ∧ t.params = s.params ∧ t.src = s.src

/-- 41_pack.md rule R101, the masking law: after a PACK, the field of every processed pixel whose word exists holds
what it held before ORed with the pixel's masked byte; after a clear, the masked byte itself. -/
def Obligations.PackedPixelsReadBackMasked : Prop :=
  ∀ (s : State) (rest : List Event), PackReady s rest →
    ∃ t, Host.Core.run core (s.pixelCount + 2) s = .next t ∧
      ∀ (i : Nat) (v : Byte), i < s.pixelCount → s.src.bytes[i]? = some v →
        tileAddr i s.src.w.toNat / (32 / s.bpp.toNat) < s.params.bufWords →
        unpack t.bmp (tileAddr i s.src.w.toNat) s.bpp.toNat =
          unpack s.bmp (tileAddr i s.src.w.toNat) s.bpp.toNat ||| (v.toNat &&& (2 ^ s.bpp.toNat - 1)) ∧
        ((∀ k, s.bmp.read k = 0#32) →
          unpack t.bmp (tileAddr i s.src.w.toNat) s.bpp.toNat = v.toNat &&& (2 ^ s.bpp.toNat - 1))

/-- 41_pack.md rules R99(a) and R103: a PACK leaves every field that no processed pixel is sent to as it was. -/
def Obligations.FieldsNoPixelTargetsAreKept : Prop :=
  ∀ (s : State) (rest : List Event), PackReady s rest →
    ∃ t, Host.Core.run core (s.pixelCount + 2) s = .next t ∧
      ∀ pos, (∀ i, i < s.pixelCount → tileAddr i s.src.w.toNat ≠ pos) →
        unpack t.bmp pos s.bpp.toNat = unpack s.bmp pos s.bpp.toNat

/-- 41_pack.md rule R99(d): what the engine's N pixel-steps leave in the buffer and in the out-of-range mark is
what merging the same pixels in any other order would leave. -/
def Obligations.PixelOrderDoesNotMatter : Prop :=
  ∀ (s : State) (rest : List Event), PackReady s rest →
    ∃ u t, step s = .next u ∧ Host.Core.run core s.pixelCount u = .next t ∧ t.idx = t.nLat ∧
      ∀ order : List Nat, order.Perm (List.range s.pixelCount) →
        t.bmp = (u.mergeAll order).bmp ∧ t.oorLat = (u.mergeAll order).oorLat

/-- 41_pack.md rule R99(c) and 70_reset_and_hazards.md rule R146: two accepted PACKs with no clear between them leave
the OR of the old content and of both packings, each at its own depth. Between them the provider may present another
source and the host may write another legal depth, in either order, or one of the two, or neither. -/
def Obligations.TwoPacksOrIntoStaleData : Prop :=
  ∀ (s : State) (src : Source) (d : Word) (between rest : List Event),
    (between = [] ∧ src = s.src ∧ d = s.bpp) ∨
    (between = [.present src] ∧ d = s.bpp) ∨
    (between = [.request ⟨.wr, 0x00000002#32, d⟩] ∧ src = s.src) ∨
    between = [.present src, .request ⟨.wr, 0x00000002#32, d⟩] ∨
    between = [.request ⟨.wr, 0x00000002#32, d⟩, .present src] →
    PackReady s (between ++ .request ⟨.wr, 0x00000000#32, 0x00000002#32⟩ :: rest) →
    src.available = true → src.indexed = true → d.toNat ∈ [1, 2, 4, 8, 16, 32] →
    Supplied src s.params.capPixels → NoResetDue rest →
    ∃ t, Host.Core.run core
        (s.pixelCount + 2 + between.length + (src.pixelCount s.params.capPixels + 2)) s = .next t ∧
      t.pending = rest ∧ t.phase = .idle ∧ t.src = src ∧ t.bpp = d ∧
      ∀ k, k < s.params.bufWords →
        t.bmp.read k = s.bmp.read k ||| s.src.packedWord s.bpp.toNat s.pixelCount k
          ||| src.packedWord d.toNat (src.pixelCount s.params.capPixels) k

/-- 41_pack.md rule R99(e): a second PACK of the same source at the same depth changes no word. -/
def Obligations.RepackingTheSameSourceChangesNoWord : Prop :=
  ∀ (s : State) (rest : List Event),
    PackReady s (.request ⟨.wr, 0x00000000#32, 0x00000002#32⟩ :: rest) → NoResetDue rest →
    ∃ t u, Host.Core.run core (s.pixelCount + 2) s = .next t ∧ Host.Core.run core (s.pixelCount + 2) t = .next u ∧
      u.bmp = t.bmp ∧ u.result = t.result ∧ u.oor = t.oor

/-- 41_pack.md rule R105: a write is suppressed exactly when some processed pixel's position is at or beyond
`BUF_WORDS * Bpi(bpp)`; none is when W and H are multiples of 8 and the image fits the capacity and the buffer, and
the PACK then ends with RESULT OK and OOR as it was. -/
def Obligations.WholeTileImagesThatFitSuppressNothing : Prop :=
  (∀ (src : Source) (bpp n bufWords : Nat), bpp ∈ [1, 2, 4, 8, 16, 32] →
    (src.outOfRange bpp n bufWords = true ↔ ∃ i, i < n ∧ bufWords * (32 / bpp) ≤ tileAddr i src.w.toNat)) ∧
  (∀ (s : State) (rest : List Event), PackReady s rest →
    8 ∣ s.src.w.toNat → 8 ∣ s.src.h.toNat →
    s.src.w.toNat * s.src.h.toNat ≤ s.params.capPixels →
    s.src.w.toNat * s.src.h.toNat ≤ s.params.bufWords * (32 / s.bpp.toNat) →
    ∃ t, Host.Core.run core (s.src.w.toNat * s.src.h.toNat + 2) s = .next t ∧
      t.phase = .idle ∧ t.result = 0#4 ∧ t.oor = s.oor)

/-- 41_pack.md rule R84: an image of zero width or height is accepted, packs no pixel and changes no word, and the
result is OK. -/
def Obligations.EmptyImagesPackNothing : Prop :=
  ∀ (s : State) (rest : List Event), PackReady s rest → s.src.w = 0#16 ∨ s.src.h = 0#16 →
    ∃ t, Host.Core.run core 2 s = .next t ∧ t.phase = .idle ∧ t.bmp = s.bmp ∧ t.result = 0#4 ∧ t.oor = s.oor ∧
      t.bpp = s.bpp

/-- 20_memory.md rule R32 and 41_pack.md rule R84: a running PACK reads no byte at or beyond N, and N is at most
W * H: with other bytes there, every step of the engine does the same. -/
def Obligations.UnreadSourceBytesDoNotMatter : Prop :=
  (∀ (s : State) (bytes : List Byte), (∀ i, i < s.nLat.toNat → bytes[i]? = s.src.bytes[i]?) →
    ∀ t, engineStep s = .next t →
      engineStep { s with src := { s.src with bytes := bytes } } =
        .next { t with src := { t.src with bytes := bytes } }) ∧
  (∀ s : State, LatchesCurrent s → s.phase = .packing → s.nLat.toNat ≤ s.src.w.toNat * s.src.h.toNat)

/-! ### The tile address mapper -/

/-- 41_pack.md rules R85, R86 and R88: `TileAddr` is the composition of the strip remap and the tile position. -/
def Obligations.TileAddrIsStripRemapThenTilePosition : Prop :=
  ∀ i w x y x' y' : Nat, 1 ≤ w → x = i % w → y = i / w → x' = x + y / 8 * w → y' = y % 8 →
    tileAddr i w = x' % 8 + y' * 8 + x' / 8 * 64

/-- 41_pack.md rule R87: the column, the row and the tile number read back from `pos`. -/
def Obligations.PositionReadsBackAsTileRowColumn : Prop :=
  ∀ i w : Nat, 1 ≤ w →
    tileAddr i w % 8 = stripX i w % 8 ∧ tileAddr i w / 8 % 8 = stripY i w ∧ tileAddr i w / 64 = stripX i w / 8 ∧
    tileAddr i w % 64 = 8 * stripY i w + stripX i w % 8 ∧
    (8 ∣ w → tileAddr i w / 64 = i / w / 8 * (w / 8) + i % w / 8)

/-- 41_pack.md rule R89(a): different indices never get the same position, and the stated inverse finds the
index. -/
def Obligations.TileAddrIsInjectiveWithItsInverse : Prop :=
  ∀ w : Nat, 1 ≤ w →
    (∀ i, tileIndex (tileAddr i w) w = i) ∧ (∀ i j, tileAddr i w = tileAddr j w → i = j)

/-- 41_pack.md rule R89(b) and (c): the first tile is `x + 8y`; when 8 divides W each strip maps one to one onto its
own range of positions; when 8 divides H too, the whole image maps onto `0 .. W*H-1`. -/
def Obligations.StripsMapOntoTheirOwnPositions : Prop :=
  ∀ w : Nat, 1 ≤ w → 8 ∣ w →
    (∀ x y, x < 8 → y < 8 → tileAddr (y * w + x) w = x + 8 * y) ∧
    (∀ s i, 8 * s * w ≤ i → i < 8 * (s + 1) * w → 8 * s * w ≤ tileAddr i w ∧ tileAddr i w < 8 * (s + 1) * w) ∧
    (∀ s p, 8 * s * w ≤ p → p < 8 * (s + 1) * w → ∃ i, 8 * s * w ≤ i ∧ i < 8 * (s + 1) * w ∧ tileAddr i w = p) ∧
    (∀ h, 8 ∣ h → (∀ i, i < w * h → tileAddr i w < w * h) ∧ (∀ p, p < w * h → ∃ i, i < w * h ∧ tileAddr i w = p))

/-- 41_pack.md rule R89(e): the bound on positions. -/
def Obligations.PositionsStayBelowTheBound : Prop :=
  ∀ n w i : Nat, 1 ≤ w → i < n → tileAddr i w ≤ n + 8 * w + 54

/-! ### The bit-packer -/

/-- 41_pack.md rules R90 and R92: pixels per word and mask at the six depths. -/
def Obligations.DepthTableValues : Prop :=
  [1, 2, 4, 8, 16, 32].map bpi = [32, 16, 8, 4, 2, 1] ∧
  [1, 2, 4, 8, 16, 32].map mask = [0x1, 0x3, 0xF, 0xFF, 0xFFFF, 0xFFFFFFFF]

/-- 41_pack.md rules R91, R93 and R94(a): at a legal depth the shift is a multiple of the depth and at most
`32 - bpp`, the field is the masked byte shifted, and it fits the word. -/
def Obligations.FieldsFitTheirWord : Prop :=
  ∀ pos bpp v : Nat, bpp ∈ [1, 2, 4, 8, 16, 32] →
    packField pos bpp v =
      ⟨pos / (32 / bpp), pos % (32 / bpp) * bpp, (v &&& (2 ^ bpp - 1)) <<< (pos % (32 / bpp) * bpp)⟩ ∧
    bpp ∣ fieldShift pos bpp ∧ fieldShift pos bpp ≤ 32 - bpp ∧ fieldValue pos bpp v < 2 ^ 32

/-- 41_pack.md rule R94(b): two pixels at different positions share no bit of a word. -/
def Obligations.FieldsOfDifferentPositionsAreDisjoint : Prop :=
  ∀ pos pos' bpp v v' : Nat, bpp ∈ [1, 2, 4, 8, 16, 32] → pos ≠ pos' → wordIndex pos bpp = wordIndex pos' bpp →
    (fieldShift pos bpp + bpp ≤ fieldShift pos' bpp ∨ fieldShift pos' bpp + bpp ≤ fieldShift pos bpp) ∧
    fieldValue pos bpp v &&& fieldValue pos' bpp v' = 0

/-- 41_pack.md rule R94(c): tile `t` is the `2 * bpp` words from `2 * bpp * t` on, and the pixel at row `r`, column
`c` of it has its word offset and shift from `8r + c`. -/
def Obligations.TilesAreTwoDepthWords : Prop :=
  ∀ t r c bpp : Nat, bpp ∈ [1, 2, 4, 8, 16, 32] → r < 8 → c < 8 →
    wordIndex (64 * t + (8 * r + c)) bpp = 2 * bpp * t + (8 * r + c) / bpi bpp ∧
    (8 * r + c) / bpi bpp < 2 * bpp ∧
    fieldShift (64 * t + (8 * r + c)) bpp = (8 * r + c) % bpi bpp * bpp

/-! ### Decode and encode -/

/-- 30_encoding.md rules R52, R54 and R56: an encoded well-formed instruction decodes to itself, every operand at
every value its encoding admits. -/
def Obligations.DecodeInvertsEncode : Prop :=
  ∀ i : Instr, i.wellFormed = true → decodeBits (encode i) = i

/-- 30_encoding.md rules R51 to R57: every request is the encoding of what it decodes to, but for the data of a
RD, which is ignored; every command word is the encoding of what it decodes to; what is decoded is well formed. -/
def Obligations.EncodeInvertsDecode : Prop :=
  (∀ q : Request, q.rw = .wr → encode (decode q) = .formatH (serialise q)) ∧
  (∀ q : Request, q.rw = .rd → encode (decode q) = .formatH (serialise { q with wdata := 0#32 })) ∧
  (∀ c : Word, encode (decodeBits (.formatC c)) = .formatC c) ∧
  (∀ b : Bits, (decodeBits b).wellFormed = true)

/-- 30_encoding.md rule R61: the match and mask rows give each request and each command word the mnemonic of what
the decoder reads from it, and no request matches two rows. -/
def Obligations.MatchAndMaskAgreeWithTheDecoder : Prop :=
  (∀ q : BitVec 65, rowOf rowsH "ERR" q = (decodeBits (.formatH q)).mnemonic) ∧
  (∀ c : Word, rowOf rowsC "ILLEGAL" c = (decodeBits (.formatC c)).mnemonic) ∧
  (∀ q : BitVec 65, ∀ r ∈ rowsH, ∀ r' ∈ rowsH, r.takes q = true → r'.takes q = true → r = r')

/-- 30_encoding.md rules R52, R54 and R56: words written out bit by bit from the spec's encoding decode to what they
stand for. Those of RD.STATUS, RD.BPP, WR.BPP, RD.BMP, ERR and the illegal word stand in 95_test_vectors.md sections
2.7 and 2.8, that of WR.BMP in its program P3; the data 0xA of WR.CMD is a word of no table. -/
def Obligations.SpecWordsDecode : Prop :=
  decodeBits (.formatH 0x1000000000000000A#65) = .wrCmd 0x0000000A#32 ∧
  decodeBits (.formatH 0x00000000100000000#65) = .rdStatus ∧
  decodeBits (.formatH 0x00000000200000000#65) = .rdBpp ∧
  decodeBits (.formatH 0x100000002FFFFFFFF#65) = .wrBpp 0xFFFFFFFF#32 ∧
  decodeBits (.formatH 0x08000003F00000000#65) = .rdBmp 63#31 ∧
  decodeBits (.formatH 0x180000000DEAD0000#65) = .wrBmp 0#31 0xDEAD0000#32 ∧
  decodeBits (.formatH 0x00000000000000000#65) = .err .rd 0#32 0#32 ∧
  decodeBits (.formatH 0x10000000100000005#65) = .err .wr 1#32 5#32 ∧
  decodeBits (.formatC 0x00000001#32) = .clear ∧
  decodeBits (.formatC 0x00000002#32) = .pack ∧
  decodeBits (.formatC 0x00000003#32) = .reset ∧
  decodeBits (.formatC 0x00000102#32) = .illegal 0x00000102#32

/-- 30_encoding.md rule R60: the transactions of the pseudo-instructions, as the operations they decode to. -/
def Obligations.PseudoInstructionsExpand : Prop :=
  (expand .clear).map decode = [.wrCmd 1#32] ∧ (expand .pack).map decode = [.wrCmd 2#32] ∧
  (expand .reset).map decode = [.wrCmd 3#32] ∧ (expand .getbpp).map decode = [.rdBpp] ∧
  (expand .getstatus).map decode = [.rdStatus] ∧
  (∀ n, (expand (.setbpp n)).map decode = [.wrBpp n]) ∧
  (∀ k, (expand (.peek k)).map decode = [.rdBmp k]) ∧
  (∀ k v, (expand (.poke k v)).map decode = [.wrBmp k v]) ∧
  (∀ n, (expand (.loadimg n)).map decode = [.wrBpp n, .wrCmd 1#32, .wrCmd 2#32])

/-! ### The machine -/

/-- 40_host_access.md rule R70: while the engine is idle a step runs the operation the host's next transaction
decodes to; and a table row's word placed for the next step, in the model's own way (notes/assumptions/4.md), is run
as the instruction the decoder reads from it. -/
def Obligations.StepRunsTheDecodedInstruction : Prop :=
  (∀ (s : State) (q : Request) (rest : List Event), s.phase = .idle → s.pending = .request q :: rest →
    step s = exec (decode q) { s with pending := rest }) ∧
  (∀ (s : State) (nbits w : Nat) (i : Instr), decodeTableWord nbits w = some i →
    step (s.withFetchWord nbits w) = exec i { s with phase := .idle })

/-- 40_host_access.md rule R70 and 41_pack.md rule R96: while a PACK runs every step is the engine's and the held
transaction waits, unchanged; the wait ends after the remaining pixel-steps and one completion, and the
transaction is then executed. That no response is given meanwhile, at the completion either, is the model's choice
(notes/assumptions/3.md). -/
def Obligations.HeldTransactionWaitsAndThenRuns : Prop :=
  ∀ (s : State) (q : Request) (rest : List Event),
    Invariant s → LatchesCurrent s → Supplied s.src s.params.capPixels → s.phase = .packing →
    s.pending = .request q :: rest →
    (∀ j, j ≤ s.nLat.toNat - s.idx.toNat →
      ∃ u, Host.Core.run core j s = .next u ∧ u.phase = .packing ∧ u.idx.toNat = s.idx.toNat + j ∧
        u.pending = s.pending ∧ u.responses = s.responses ∧ step u = engineStep u) ∧
    ∃ t, Host.Core.run core (s.nLat.toNat - s.idx.toNat + 1) s = .next t ∧ t.phase = .idle ∧
      t.pending = s.pending ∧ t.responses = s.responses ∧
      step t = exec (decode q) { t with pending := rest }

/-- 70_reset_and_hazards.md rule R142: power-on reset at any time, also while a PACK runs; the parameters, the
presented source, the remaining events and the responses already given are not the block's state. That the outside
world is a list of events, and a power-on reset one of them, is the model's choice (notes/assumptions/5.md and
6.md). -/
def Obligations.PowerOnResetAtAnyTime : Prop :=
  (∀ (s : State) (n : Nat) (rest : List Event), s.phase = .idle → s.pending = .powerOn n :: rest →
    step s = .next { State.reset with
      params := s.params, src := s.src, pending := rest, responses := s.responses }) ∧
  (∀ (s : State) (rest : List Event), s.phase = .packing → s.pending = .powerOn 0 :: rest →
    step s = .next { State.reset with
      params := s.params, src := s.src, pending := rest, responses := s.responses }) ∧
  (∀ (s : State) (n : Nat) (rest : List Event), s.phase = .packing → s.pending = .powerOn (n + 1) :: rest →
    step s = engineStep { s with pending := .powerOn n :: rest })

/-- 10_state.md rule R22: every piece of the block's state is zero after reset. -/
def Obligations.ResetStateIsAllZero : Prop :=
  (∀ k, State.reset.bmp.read k = 0#32) ∧ State.reset.bpp = 0#32 ∧ State.reset.status = 0#32 ∧
  State.reset.result = 0#4 ∧ State.reset.oor = false ∧ State.reset.phase = .idle ∧ State.reset.idx = 0#32 ∧
  State.reset.nLat = 0#32 ∧ State.reset.wLat = 0#16 ∧ State.reset.bppLat = 0#6 ∧ State.reset.oorLat = false ∧
  (∀ s : State, { s.blockReset with
      params := State.reset.params, src := State.reset.src, pending := [], responses := [] } = State.reset)

/-- 10_state.md rule R23, first part: the start of every run meets the invariant. The ports at the start are the
model's choice (notes/assumptions/2.md). -/
def Obligations.EveryRunStartsInTheInvariant : Prop :=
  Invariant State.reset ∧ LatchesCurrent State.reset ∧
  ∀ (p : Config.Params) (script : List Event), p.legal →
    Invariant (State.boot p script) ∧ LatchesCurrent (State.boot p script)

/-- 10_state.md rule R23: every step keeps the invariant, from every state that has it. -/
def Obligations.EveryStepKeepsTheInvariant : Prop :=
  ∀ s t : State, Invariant s → step s = .next t → Invariant t

/-- 10_state.md rules R13 and R14, from every state that has the invariant: what RD.STATUS answers has its upper 27
bits 0 and a RESULT of at most 5. -/
def Obligations.StatusReadsOnlyDefinedCodes : Prop :=
  ∀ s : State, Invariant s →
    ∃ v : Word, exec .rdStatus s = .next { s with responses := s.responses ++ [.data v] } ∧
      v.toNat < 32 ∧ v.toNat % 16 ≤ 5

/-- 41_pack.md rule R83 and 20_memory.md rule R34: while a PACK runs the latches stay equal to what the source port
and BPP show. -/
def Obligations.LatchesStayCurrent : Prop :=
  ∀ s t : State, LatchesCurrent s → step s = .next t → LatchesCurrent t

/-- 60_exceptions.md rule R136: nothing is stuck. From a state that has the invariant, with a provider that keeps
its duty, every step answers a next state of the same kind. -/
def Obligations.DutifulRunsNeverStop : Prop :=
  ∀ s : State, Invariant s → LatchesCurrent s → Dutiful s →
    ∃ t, step s = .next t ∧ Invariant t ∧ LatchesCurrent t ∧ Dutiful t

/-- 60_exceptions.md rule R136: no step from a state that has the invariant faults, whatever the provider does. The
two faults are the model's (notes/assumptions/9.md). -/
def Obligations.TheInvariantRulesOutEveryFault : Prop :=
  ∀ (s : State) (f : Fault), Invariant s → step s ≠ .fault f

/-- 10_state.md rule R15: OOR is cleared by nothing but RESET and power-on reset, and set by nothing but the end of
a PACK that suppressed a write. -/
def Obligations.OorIsStickyUntilReset : Prop :=
  ∀ s t : State, step s = .next t →
    (s.oor = true →
      t.oor = true ∨
      (∃ n rest, s.pending = .powerOn n :: rest ∧ (s.phase = .idle ∨ n = 0)) ∨
      (s.phase = .idle ∧ ∃ rest, s.pending = .request ⟨.wr, 0x00000000#32, 0x00000003#32⟩ :: rest)) ∧
    (s.oor = false → t.oor = true → s.phase = .packing ∧ s.idx = s.nLat ∧ s.oorLat = true) ∧
    (s.phase = .packing → (∀ rest, s.pending ≠ .powerOn 0 :: rest) → s.idx = s.nLat → s.oorLat = true →
      t.oor = true)

/-- 10_state.md rule R12: BPP is written by nothing but WR.BPP, RESET and power-on reset. -/
def Obligations.DepthChangesOnlyByWriteOrReset : Prop :=
  ∀ s t : State, step s = .next t →
    t.bpp = s.bpp ∨
    (s.phase = .idle ∧ ∃ v rest, s.pending = .request ⟨.wr, 0x00000002#32, v⟩ :: rest ∧ t.bpp = v) ∨
    (s.phase = .idle ∧ (∃ rest, s.pending = .request ⟨.wr, 0x00000000#32, 0x00000003#32⟩ :: rest) ∧ t.bpp = 0#32) ∨
    ((∃ n rest, s.pending = .powerOn n :: rest ∧ (s.phase = .idle ∨ n = 0)) ∧ t.bpp = 0#32)

/-- 00_scope.md rules R4 and R5 and 20_memory.md rule R34: no step changes the parameters, and the presented source
changes only when the provider presents another while the engine is idle. -/
def Obligations.ParametersAndSourceAreNotTheBlocks : Prop :=
  ∀ s t : State, step s = .next t →
    t.params = s.params ∧
    (t.src = s.src ∨ (s.phase = .idle ∧ ∃ src rest, s.pending = .present src :: rest ∧ t.src = src))

/-- 70_reset_and_hazards.md rule R153: every run of a dutiful provider ends, with one response for each host
transaction. Rule R153's runs hold no power-on reset; that it is so of scripts with power-on resets too rests on the
model's choices: the outside world is a list of events (notes/assumptions/5.md), a PACK is answered at its acceptance,
so that a reset which abandons it takes no response away (notes/assumptions/3.md), and a transaction that waits across
a reset is executed after it (notes/assumptions/6.md). -/
def Obligations.EveryDutifulRunEnds : Prop :=
  ∀ (p : Config.Params) (script : List Event), p.legal → (∀ e ∈ script, EventSupplied p.capPixels e) →
    ∃ k t, Host.Core.run core k (State.boot p script) = .next t ∧ Ended t ∧ Invariant t ∧
      t.responses.length = (script.filter isRequest).length

/-- 70_reset_and_hazards.md rule R153: no observation depends on the engine's latches. Two states that differ only
in what an idle engine's hidden registers hold step to two such states with the same observation. -/
def Obligations.HiddenRegistersAreUnobservable : Prop :=
  ∀ s s' t : State, SameVisible s s' → step s = .next t →
    ∃ t', step s' = .next t' ∧ SameVisible t t' ∧ observe t = observe t'
end

