-- ==== Sys2Proof/Laws/Decode.lean ====
section
/-! SUPPORT. The fields of a request and of a command word: assembling and taking apart. -/
namespace Sys2Proof.Laws

/-- Two bit vectors side by side, in numbers (00_scope.md section 6). -/
theorem append_toNat {m n : Nat} (x : BitVec m) (y : BitVec n) :
    (x ++ y).toNat = x.toNat * 2 ^ n + y.toNat := by
  rw [BitVec.toNat_append, ← Nat.shiftLeft_eq, Nat.shiftLeft_add_eq_or_of_lt y.isLt]

/-! ### The window -/

/-- The address map in numbers: word `k` of the window is at 0x8000_0000 + k (20_memory.md rule R35). -/
theorem windowAddr_toNat (k : BitVec 31) : (windowAddr k).toNat = 0x80000000 + k.toNat :=
  append_toNat 1#1 k

theorem windowIndex_toNat (a : Word) : (windowIndex a).toNat = a.toNat % 0x80000000 := by
  simp [windowIndex, BitVec.extractLsb'_toNat]

/-- An address is in the window when it is at least 0x8000_0000. -/
theorem inWindow_iff (a : Word) : inWindow a = true ↔ 0x80000000 ≤ a.toNat := by
  have ha := a.isLt
  simp only [inWindow, BitVec.getLsbD, Nat.testBit_eq_decide_div_mod_eq, decide_eq_true_eq]
  omega

theorem windowIndex_windowAddr (k : BitVec 31) : windowIndex (windowAddr k) = k := by
  have hk := k.isLt
  apply BitVec.eq_of_toNat_eq
  rw [windowIndex_toNat, windowAddr_toNat]
  omega

theorem inWindow_windowAddr (k : BitVec 31) : inWindow (windowAddr k) = true := by
  rw [inWindow_iff, windowAddr_toNat]
  omega

theorem windowAddr_windowIndex {a : Word} (h : inWindow a = true) : windowAddr (windowIndex a) = a := by
  have ha := a.isLt
  rw [inWindow_iff] at h
  apply BitVec.eq_of_toNat_eq
  rw [windowAddr_toNat, windowIndex_toNat]
  omega

/-! ### The serialisation -/

/-- `Q` in numbers (30_encoding.md rule R52). -/
theorem serialise_toNat (q : Request) :
    (serialise q).toNat = (rwBit q.rw).toNat * 2 ^ 64 + q.addr.toNat * 2 ^ 32 + q.wdata.toNat := by
  have h1 := append_toNat (rwBit q.rw ++ q.addr) q.wdata
  have h2 := append_toNat (rwBit q.rw) q.addr
  have h3 : (serialise q).toNat = ((rwBit q.rw ++ q.addr) ++ q.wdata).toNat := rfl
  rw [h3, h1, h2]
  ring

theorem deserialise_addr_toNat (q : BitVec 65) : (deserialise q).addr.toNat = q.toNat / 2 ^ 32 % 2 ^ 32 := by
  simp [deserialise, BitVec.extractLsb'_toNat, Nat.shiftRight_eq_div_pow]

theorem deserialise_wdata_toNat (q : BitVec 65) : (deserialise q).wdata.toNat = q.toNat % 2 ^ 32 := by
  simp [deserialise, BitVec.extractLsb'_toNat]

theorem deserialise_rw (q : BitVec 65) :
    (deserialise q).rw = if 2 ^ 64 ≤ q.toNat then .wr else .rd := by
  have hq := q.isLt
  have h : q.getLsbD 64 = decide (2 ^ 64 ≤ q.toNat) := by
    rw [Bool.eq_iff_iff, BitVec.getLsbD, Nat.testBit_eq_decide_div_mod_eq, decide_eq_true_eq, decide_eq_true_eq]
    omega
  show (if q.getLsbD 64 = true then Rw.wr else Rw.rd) = _
  rw [h]
  simp only [decide_eq_true_eq]

theorem rwBit_rd : (rwBit .rd).toNat = 0 := rfl
theorem rwBit_wr : (rwBit .wr).toNat = 1 := rfl

theorem request_ext {p q : Request} (h1 : p.rw = q.rw) (h2 : p.addr.toNat = q.addr.toNat)
    (h3 : p.wdata.toNat = q.wdata.toNat) : p = q := by
  obtain ⟨a, b, c⟩ := p
  obtain ⟨a', b', c'⟩ := q
  simp only at h1 h2 h3
  rw [h1, BitVec.eq_of_toNat_eq h2, BitVec.eq_of_toNat_eq h3]

theorem deserialise_serialise (q : Request) : deserialise (serialise q) = q := by
  have ha := q.addr.isLt
  have hd := q.wdata.isLt
  have hs := serialise_toNat q
  cases hr : q.rw with
  | rd =>
    rw [hr, rwBit_rd] at hs
    apply request_ext
    · rw [deserialise_rw, hr, if_neg (by omega)]
    · rw [deserialise_addr_toNat]; omega
    · rw [deserialise_wdata_toNat]; omega
  | wr =>
    rw [hr, rwBit_wr] at hs
    apply request_ext
    · rw [deserialise_rw, hr, if_pos (by omega)]
    · rw [deserialise_addr_toNat]; omega
    · rw [deserialise_wdata_toNat]; omega

theorem serialise_deserialise (q : BitVec 65) : serialise (deserialise q) = q := by
  have hq := q.isLt
  apply BitVec.eq_of_toNat_eq
  rw [serialise_toNat, deserialise_addr_toNat, deserialise_wdata_toNat, deserialise_rw]
  split_ifs
  · rw [rwBit_wr]; omega
  · rw [rwBit_rd]; omega

/-! ### Command words -/

/-- A command word in numbers: `op` is the low byte and the reserved field the rest. -/
theorem command_fields (c : Word) :
    (commandOp c).toNat = c.toNat % 256 ∧ (commandReserved c).toNat = c.toNat / 256 := by
  have hc := c.isLt
  constructor
  · simp [commandOp, BitVec.extractLsb'_toNat]
  · simp only [commandReserved, BitVec.extractLsb'_toNat, Nat.shiftRight_eq_div_pow]
    omega

end Sys2Proof.Laws
end

