-- ==== Sys2Proof/Laws/Memory.lean ====
section
/-! SUPPORT. The laws of the Bitmap Buffer as data: a read after a write, the canonical form, and that equal
content is equal data. -/
namespace Sys2Proof.Laws

open Sys2Proof.Machine

@[simp] theorem read_nil (k : Nat) : Memory.read [] k = Memory.blank := rfl

@[simp] theorem read_zero (k : Nat) : Memory.zero.read k = Memory.blank := rfl

theorem read_cons (a : Nat) (v : Word) (m : Memory) (k : Nat) :
    Memory.read ((a, v) :: m) k = if a = k then v else Memory.read m k := rfl

/-- An index below every listed one reads as blank. -/
theorem read_below (m : Memory) (k : Nat) (h : ∀ c ∈ m, k < c.1) : m.read k = Memory.blank := by
  induction m with
  | nil => rfl
  | cons c m ih =>
    obtain ⟨a, v⟩ := c
    have ha : k < a := h (a, v) (by simp)
    rw [read_cons, if_neg (by omega)]
    exact ih fun c hc => h c (by simp [hc])

theorem wf_nil : Memory.wf [] := by simp [Memory.wf]

theorem wf_zero : Memory.wf Memory.zero := wf_nil

theorem wf_cons {a : Nat} {v : Word} {m : Memory} :
    Memory.wf ((a, v) :: m) ↔ (∀ c ∈ m, a < c.1) ∧ v ≠ Memory.blank ∧ m.wf := by
  simp only [Memory.wf, List.pairwise_cons, List.forall_mem_cons]
  tauto

/-- A read at the index just written gives the word written; every other index reads as before. -/
theorem read_write (m : Memory) (hm : m.wf) (k : Nat) (v : Word) (j : Nat) :
    (m.write k v).read j = if j = k then v else m.read j := by
  induction m with
  | nil =>
    by_cases hv : v = Memory.blank <;> by_cases hj : j = k <;>
      simp_all [Memory.write, Memory.read, eq_comm]
  | cons c m ih =>
    obtain ⟨a, w⟩ := c
    obtain ⟨hlow, hw, hwf⟩ := wf_cons.mp hm
    have hbelow : ∀ i, i ≤ a → Memory.read m i = Memory.blank := fun i hi =>
      read_below m i fun c hc => by have := hlow c hc; omega
    by_cases hj : j = k
    · subst hj
      rw [if_pos rfl, Memory.write]
      split_ifs with h1 h2 h3 h4
      · rw [read_cons, if_neg (by omega), hbelow j (by omega), h2]
      · rw [read_cons, if_pos rfl]
      · rw [hbelow j (by omega), h4]
      · rw [read_cons, if_pos rfl]
      · rw [read_cons, if_neg (by omega), ih hwf, if_pos rfl]
    · rw [if_neg hj, Memory.write]
      split_ifs with h1 h2 h3 h4
      · rfl
      · rw [read_cons, if_neg (by omega)]
      · rw [read_cons, if_neg (by omega)]
      · rw [read_cons, read_cons, if_neg (by omega), if_neg (by omega)]
      · rw [read_cons, read_cons, ih hwf, if_neg hj]

/-- What a write leaves listed was listed before or is the word written. -/
theorem mem_write {m : Memory} {k : Nat} {v : Word} {c : Nat × Word} (h : c ∈ m.write k v) :
    c ∈ m ∨ (c = (k, v) ∧ v ≠ Memory.blank) := by
  induction m with
  | nil =>
    simp only [Memory.write] at h
    split_ifs at h with hv
    · simp at h
    · exact .inr ⟨by simpa using h, hv⟩
  | cons d m ih =>
    obtain ⟨a, w⟩ := d
    simp only [Memory.write] at h
    split_ifs at h with h1 h2 h3 h4
    · exact .inl h
    · rcases List.mem_cons.mp h with rfl | h
      · exact .inr ⟨rfl, h2⟩
      · exact .inl h
    · exact .inl (List.mem_cons_of_mem _ h)
    · rcases List.mem_cons.mp h with rfl | h
      · exact .inr ⟨rfl, h4⟩
      · exact .inl (List.mem_cons_of_mem _ h)
    · rcases List.mem_cons.mp h with rfl | h
      · exact .inl (by simp)
      · rcases ih h with h | h
        · exact .inl (List.mem_cons_of_mem _ h)
        · exact .inr h

/-- A write keeps the canonical form. -/
theorem write_wf {m : Memory} (hm : m.wf) (k : Nat) (v : Word) : (m.write k v).wf := by
  induction m with
  | nil =>
    simp only [Memory.write]
    split_ifs with hv
    · exact wf_nil
    · exact wf_cons.mpr ⟨by simp, hv, wf_nil⟩
  | cons d m ih =>
    obtain ⟨a, w⟩ := d
    obtain ⟨hlow, hw, hwf⟩ := wf_cons.mp hm
    simp only [Memory.write]
    split_ifs with h1 h2 h3 h4
    · exact hm
    · refine wf_cons.mpr ⟨?_, h2, hm⟩
      intro c hc
      rcases List.mem_cons.mp hc with rfl | hc
      · exact h1
      · exact lt_trans h1 (hlow c hc)
    · exact hwf
    · exact wf_cons.mpr ⟨by subst h3; exact hlow, h4, hwf⟩
    · refine wf_cons.mpr ⟨?_, hw, ih hwf⟩
      intro c hc
      rcases mem_write hc with hc | ⟨rfl, -⟩
      · exact hlow c hc
      · show a < k
        omega

/-- A write at an index below a bound keeps every listed index below it. -/
theorem write_bounded {m : Memory} {n : Nat} (hm : ∀ c ∈ m, c.1 < n) {k : Nat} (hk : k < n) (v : Word) :
    ∀ c ∈ m.write k v, c.1 < n := by
  intro c hc
  rcases mem_write hc with hc | ⟨rfl, -⟩
  · exact hm c hc
  · exact hk

/-- A listed word is what its index reads as. -/
theorem read_of_mem {m : Memory} (hm : m.wf) {c : Nat × Word} (hc : c ∈ m) : m.read c.1 = c.2 := by
  induction m with
  | nil => simp at hc
  | cons d m ih =>
    obtain ⟨a, w⟩ := d
    obtain ⟨hlow, -, hwf⟩ := wf_cons.mp hm
    rcases List.mem_cons.mp hc with rfl | hc
    · simp [read_cons]
    · rw [read_cons, if_neg (by have := hlow c hc; omega), ih hwf hc]

/-- An index that does not read as blank is listed. -/
theorem mem_of_read {m : Memory} {k : Nat} (h : m.read k ≠ Memory.blank) : ∃ v, (k, v) ∈ m := by
  induction m with
  | nil => simp at h
  | cons d m ih =>
    obtain ⟨a, w⟩ := d
    rw [read_cons] at h
    split_ifs at h with ha
    · exact ⟨w, by simp [ha]⟩
    · obtain ⟨v, hv⟩ := ih h
      exact ⟨v, List.mem_cons_of_mem _ hv⟩

/-- Two buffers in canonical form with the same content are the same data. -/
theorem memory_ext {m n : Memory} (hm : m.wf) (hn : n.wf) (h : ∀ k, m.read k = n.read k) : m = n := by
  induction m generalizing n with
  | nil =>
    cases n with
    | nil => rfl
    | cons d n =>
      obtain ⟨b, w⟩ := d
      have := h b
      rw [read_of_mem hn (c := (b, w)) (by simp)] at this
      exact absurd this.symm (wf_cons.mp hn).2.1
  | cons c m ih =>
    obtain ⟨a, v⟩ := c
    obtain ⟨hma, hv, hmw⟩ := wf_cons.mp hm
    cases n with
    | nil =>
      have := h a
      rw [read_of_mem hm (c := (a, v)) (by simp)] at this
      exact absurd this hv
    | cons d n =>
      obtain ⟨b, w⟩ := d
      obtain ⟨hnb, hw, hnw⟩ := wf_cons.mp hn
      have hab : a = b := by
        rcases lt_trichotomy a b with hlt | heq | hgt
        · have ha := h a
          rw [read_of_mem hm (c := (a, v)) (by simp), read_below _ a (by
            intro c hc
            rcases List.mem_cons.mp hc with rfl | hc
            · exact hlt
            · exact lt_trans hlt (hnb c hc))] at ha
          exact absurd ha hv
        · exact heq
        · have hb := h b
          rw [read_of_mem hn (c := (b, w)) (by simp), read_below _ b (by
            intro c hc
            rcases List.mem_cons.mp hc with rfl | hc
            · exact hgt
            · exact lt_trans hgt (hma c hc))] at hb
          exact absurd hb.symm hw
      subst hab
      have hvw : v = w := by
        have ha := h a
        rwa [read_of_mem hm (c := (a, v)) (by simp), read_of_mem hn (c := (a, w)) (by simp)] at ha
      subst hvw
      refine congrArg _ (ih hmw hnw fun k => ?_)
      have hk := h k
      rw [read_cons, read_cons] at hk
      split_ifs at hk with hka
      · subst hka
        rw [read_below m a hma, read_below n a hnb]
      · exact hk

end Sys2Proof.Laws
end

