-- ==== Sys2Proof/Laws/State.lean ====
section
/-! SUPPORT. One lemma per field and named update of the state, so that no proof unfolds a record update. -/
namespace Sys2Proof.Laws

open Sys2Proof.Machine

variable (s : State)

@[simp] theorem raise_eq_setResult (c : ResultCode) : s.raise c = s.setResult c := rfl
@[simp] theorem respondErr_eq_respond : s.respondErr = s.respond .err := rfl

/-! ### `setWord` -/

@[simp] theorem setWord_params (k : Nat) (v : Word) : (s.setWord k v).params = s.params := rfl
@[simp] theorem setWord_bmp (k : Nat) (v : Word) : (s.setWord k v).bmp = s.bmp.write k v := rfl
@[simp] theorem setWord_bpp (k : Nat) (v : Word) : (s.setWord k v).bpp = s.bpp := rfl
@[simp] theorem setWord_result (k : Nat) (v : Word) : (s.setWord k v).result = s.result := rfl
@[simp] theorem setWord_oor (k : Nat) (v : Word) : (s.setWord k v).oor = s.oor := rfl
@[simp] theorem setWord_phase (k : Nat) (v : Word) : (s.setWord k v).phase = s.phase := rfl
@[simp] theorem setWord_idx (k : Nat) (v : Word) : (s.setWord k v).idx = s.idx := rfl
@[simp] theorem setWord_nLat (k : Nat) (v : Word) : (s.setWord k v).nLat = s.nLat := rfl
@[simp] theorem setWord_wLat (k : Nat) (v : Word) : (s.setWord k v).wLat = s.wLat := rfl
@[simp] theorem setWord_bppLat (k : Nat) (v : Word) : (s.setWord k v).bppLat = s.bppLat := rfl
@[simp] theorem setWord_oorLat (k : Nat) (v : Word) : (s.setWord k v).oorLat = s.oorLat := rfl
@[simp] theorem setWord_src (k : Nat) (v : Word) : (s.setWord k v).src = s.src := rfl
@[simp] theorem setWord_pending (k : Nat) (v : Word) : (s.setWord k v).pending = s.pending := rfl
@[simp] theorem setWord_responses (k : Nat) (v : Word) : (s.setWord k v).responses = s.responses := rfl

/-! ### `clearBitmap` -/

@[simp] theorem clearBitmap_params : s.clearBitmap.params = s.params := rfl
@[simp] theorem clearBitmap_bmp : s.clearBitmap.bmp = Memory.zero := rfl
@[simp] theorem clearBitmap_bpp : s.clearBitmap.bpp = s.bpp := rfl
@[simp] theorem clearBitmap_result : s.clearBitmap.result = s.result := rfl
@[simp] theorem clearBitmap_oor : s.clearBitmap.oor = s.oor := rfl
@[simp] theorem clearBitmap_phase : s.clearBitmap.phase = s.phase := rfl
@[simp] theorem clearBitmap_idx : s.clearBitmap.idx = s.idx := rfl
@[simp] theorem clearBitmap_nLat : s.clearBitmap.nLat = s.nLat := rfl
@[simp] theorem clearBitmap_wLat : s.clearBitmap.wLat = s.wLat := rfl
@[simp] theorem clearBitmap_bppLat : s.clearBitmap.bppLat = s.bppLat := rfl
@[simp] theorem clearBitmap_oorLat : s.clearBitmap.oorLat = s.oorLat := rfl
@[simp] theorem clearBitmap_src : s.clearBitmap.src = s.src := rfl
@[simp] theorem clearBitmap_pending : s.clearBitmap.pending = s.pending := rfl
@[simp] theorem clearBitmap_responses : s.clearBitmap.responses = s.responses := rfl

/-! ### `setBpp` -/

@[simp] theorem setBpp_params (v : Word) : (s.setBpp v).params = s.params := rfl
@[simp] theorem setBpp_bmp (v : Word) : (s.setBpp v).bmp = s.bmp := rfl
@[simp] theorem setBpp_bpp (v : Word) : (s.setBpp v).bpp = v := rfl
@[simp] theorem setBpp_result (v : Word) : (s.setBpp v).result = s.result := rfl
@[simp] theorem setBpp_oor (v : Word) : (s.setBpp v).oor = s.oor := rfl
@[simp] theorem setBpp_phase (v : Word) : (s.setBpp v).phase = s.phase := rfl
@[simp] theorem setBpp_idx (v : Word) : (s.setBpp v).idx = s.idx := rfl
@[simp] theorem setBpp_nLat (v : Word) : (s.setBpp v).nLat = s.nLat := rfl
@[simp] theorem setBpp_wLat (v : Word) : (s.setBpp v).wLat = s.wLat := rfl
@[simp] theorem setBpp_bppLat (v : Word) : (s.setBpp v).bppLat = s.bppLat := rfl
@[simp] theorem setBpp_oorLat (v : Word) : (s.setBpp v).oorLat = s.oorLat := rfl
@[simp] theorem setBpp_src (v : Word) : (s.setBpp v).src = s.src := rfl
@[simp] theorem setBpp_pending (v : Word) : (s.setBpp v).pending = s.pending := rfl
@[simp] theorem setBpp_responses (v : Word) : (s.setBpp v).responses = s.responses := rfl
@[simp] theorem setBpp_word (v : Word) (j : Nat) : (s.setBpp v).word j = s.word j := rfl

/-! ### `setResult` -/

@[simp] theorem setResult_params (c : ResultCode) : (s.setResult c).params = s.params := rfl
@[simp] theorem setResult_bmp (c : ResultCode) : (s.setResult c).bmp = s.bmp := rfl
@[simp] theorem setResult_bpp (c : ResultCode) : (s.setResult c).bpp = s.bpp := rfl
@[simp] theorem setResult_result (c : ResultCode) : (s.setResult c).result = c.bits := rfl
@[simp] theorem setResult_oor (c : ResultCode) : (s.setResult c).oor = s.oor := rfl
@[simp] theorem setResult_phase (c : ResultCode) : (s.setResult c).phase = s.phase := rfl
@[simp] theorem setResult_idx (c : ResultCode) : (s.setResult c).idx = s.idx := rfl
@[simp] theorem setResult_nLat (c : ResultCode) : (s.setResult c).nLat = s.nLat := rfl
@[simp] theorem setResult_wLat (c : ResultCode) : (s.setResult c).wLat = s.wLat := rfl
@[simp] theorem setResult_bppLat (c : ResultCode) : (s.setResult c).bppLat = s.bppLat := rfl
@[simp] theorem setResult_oorLat (c : ResultCode) : (s.setResult c).oorLat = s.oorLat := rfl
@[simp] theorem setResult_src (c : ResultCode) : (s.setResult c).src = s.src := rfl
@[simp] theorem setResult_pending (c : ResultCode) : (s.setResult c).pending = s.pending := rfl
@[simp] theorem setResult_responses (c : ResultCode) : (s.setResult c).responses = s.responses := rfl
@[simp] theorem setResult_word (c : ResultCode) (j : Nat) : (s.setResult c).word j = s.word j := rfl

/-! ### `respond` -/

@[simp] theorem respond_params (r : Response) : (s.respond r).params = s.params := rfl
@[simp] theorem respond_bmp (r : Response) : (s.respond r).bmp = s.bmp := rfl
@[simp] theorem respond_bpp (r : Response) : (s.respond r).bpp = s.bpp := rfl
@[simp] theorem respond_result (r : Response) : (s.respond r).result = s.result := rfl
@[simp] theorem respond_oor (r : Response) : (s.respond r).oor = s.oor := rfl
@[simp] theorem respond_phase (r : Response) : (s.respond r).phase = s.phase := rfl
@[simp] theorem respond_idx (r : Response) : (s.respond r).idx = s.idx := rfl
@[simp] theorem respond_nLat (r : Response) : (s.respond r).nLat = s.nLat := rfl
@[simp] theorem respond_wLat (r : Response) : (s.respond r).wLat = s.wLat := rfl
@[simp] theorem respond_bppLat (r : Response) : (s.respond r).bppLat = s.bppLat := rfl
@[simp] theorem respond_oorLat (r : Response) : (s.respond r).oorLat = s.oorLat := rfl
@[simp] theorem respond_src (r : Response) : (s.respond r).src = s.src := rfl
@[simp] theorem respond_pending (r : Response) : (s.respond r).pending = s.pending := rfl
@[simp] theorem respond_responses (r : Response) : (s.respond r).responses = s.responses ++ [r] := rfl
@[simp] theorem respond_word (r : Response) (j : Nat) : (s.respond r).word j = s.word j := rfl

/-! ### `setPending` -/

@[simp] theorem setPending_params (l : List Event) : (s.setPending l).params = s.params := rfl
@[simp] theorem setPending_bmp (l : List Event) : (s.setPending l).bmp = s.bmp := rfl
@[simp] theorem setPending_bpp (l : List Event) : (s.setPending l).bpp = s.bpp := rfl
@[simp] theorem setPending_result (l : List Event) : (s.setPending l).result = s.result := rfl
@[simp] theorem setPending_oor (l : List Event) : (s.setPending l).oor = s.oor := rfl
@[simp] theorem setPending_phase (l : List Event) : (s.setPending l).phase = s.phase := rfl
@[simp] theorem setPending_idx (l : List Event) : (s.setPending l).idx = s.idx := rfl
@[simp] theorem setPending_nLat (l : List Event) : (s.setPending l).nLat = s.nLat := rfl
@[simp] theorem setPending_wLat (l : List Event) : (s.setPending l).wLat = s.wLat := rfl
@[simp] theorem setPending_bppLat (l : List Event) : (s.setPending l).bppLat = s.bppLat := rfl
@[simp] theorem setPending_oorLat (l : List Event) : (s.setPending l).oorLat = s.oorLat := rfl
@[simp] theorem setPending_src (l : List Event) : (s.setPending l).src = s.src := rfl
@[simp] theorem setPending_pending (l : List Event) : (s.setPending l).pending = l := rfl
@[simp] theorem setPending_responses (l : List Event) : (s.setPending l).responses = s.responses := rfl
@[simp] theorem setPending_word (l : List Event) (j : Nat) : (s.setPending l).word j = s.word j := rfl

/-! ### `presentSource` -/

@[simp] theorem presentSource_params (src : Source) : (s.presentSource src).params = s.params := rfl
@[simp] theorem presentSource_bmp (src : Source) : (s.presentSource src).bmp = s.bmp := rfl
@[simp] theorem presentSource_bpp (src : Source) : (s.presentSource src).bpp = s.bpp := rfl
@[simp] theorem presentSource_result (src : Source) : (s.presentSource src).result = s.result := rfl
@[simp] theorem presentSource_oor (src : Source) : (s.presentSource src).oor = s.oor := rfl
@[simp] theorem presentSource_phase (src : Source) : (s.presentSource src).phase = s.phase := rfl
@[simp] theorem presentSource_idx (src : Source) : (s.presentSource src).idx = s.idx := rfl
@[simp] theorem presentSource_nLat (src : Source) : (s.presentSource src).nLat = s.nLat := rfl
@[simp] theorem presentSource_wLat (src : Source) : (s.presentSource src).wLat = s.wLat := rfl
@[simp] theorem presentSource_bppLat (src : Source) : (s.presentSource src).bppLat = s.bppLat := rfl
@[simp] theorem presentSource_oorLat (src : Source) : (s.presentSource src).oorLat = s.oorLat := rfl
@[simp] theorem presentSource_src (src : Source) : (s.presentSource src).src = src := rfl
@[simp] theorem presentSource_pending (src : Source) : (s.presentSource src).pending = s.pending := rfl
@[simp] theorem presentSource_responses (src : Source) : (s.presentSource src).responses = s.responses := rfl
@[simp] theorem presentSource_word (src : Source) (j : Nat) : (s.presentSource src).word j = s.word j := rfl

/-! ### `blockReset` -/

@[simp] theorem blockReset_params : s.blockReset.params = s.params := rfl
@[simp] theorem blockReset_bmp : s.blockReset.bmp = Memory.zero := rfl
@[simp] theorem blockReset_bpp : s.blockReset.bpp = 0#32 := rfl
@[simp] theorem blockReset_result : s.blockReset.result = 0#4 := rfl
@[simp] theorem blockReset_oor : s.blockReset.oor = false := rfl
@[simp] theorem blockReset_phase : s.blockReset.phase = .idle := rfl
@[simp] theorem blockReset_idx : s.blockReset.idx = 0#32 := rfl
@[simp] theorem blockReset_nLat : s.blockReset.nLat = 0#32 := rfl
@[simp] theorem blockReset_wLat : s.blockReset.wLat = 0#16 := rfl
@[simp] theorem blockReset_bppLat : s.blockReset.bppLat = 0#6 := rfl
@[simp] theorem blockReset_oorLat : s.blockReset.oorLat = false := rfl
@[simp] theorem blockReset_src : s.blockReset.src = s.src := rfl
@[simp] theorem blockReset_pending : s.blockReset.pending = s.pending := rfl
@[simp] theorem blockReset_responses : s.blockReset.responses = s.responses := rfl

/-! ### `offer` -/

@[simp] theorem offer_params (q : Request) : (s.offer q).params = s.params := rfl
@[simp] theorem offer_bmp (q : Request) : (s.offer q).bmp = s.bmp := rfl
@[simp] theorem offer_bpp (q : Request) : (s.offer q).bpp = s.bpp := rfl
@[simp] theorem offer_result (q : Request) : (s.offer q).result = s.result := rfl
@[simp] theorem offer_oor (q : Request) : (s.offer q).oor = s.oor := rfl
@[simp] theorem offer_phase (q : Request) : (s.offer q).phase = .idle := rfl
@[simp] theorem offer_idx (q : Request) : (s.offer q).idx = s.idx := rfl
@[simp] theorem offer_nLat (q : Request) : (s.offer q).nLat = s.nLat := rfl
@[simp] theorem offer_wLat (q : Request) : (s.offer q).wLat = s.wLat := rfl
@[simp] theorem offer_bppLat (q : Request) : (s.offer q).bppLat = s.bppLat := rfl
@[simp] theorem offer_oorLat (q : Request) : (s.offer q).oorLat = s.oorLat := rfl
@[simp] theorem offer_src (q : Request) : (s.offer q).src = s.src := rfl
@[simp] theorem offer_pending (q : Request) : (s.offer q).pending = .request q :: s.pending := rfl
@[simp] theorem offer_responses (q : Request) : (s.offer q).responses = s.responses := rfl
@[simp] theorem offer_word (q : Request) (j : Nat) : (s.offer q).word j = s.word j := rfl

/-! ### `accept` -/

@[simp] theorem accept_params : s.accept.params = s.params := rfl
@[simp] theorem accept_bmp : s.accept.bmp = s.bmp := rfl
@[simp] theorem accept_bpp : s.accept.bpp = s.bpp := rfl
@[simp] theorem accept_result : s.accept.result = s.result := rfl
@[simp] theorem accept_oor : s.accept.oor = s.oor := rfl
@[simp] theorem accept_phase : s.accept.phase = .packing := rfl
@[simp] theorem accept_idx : s.accept.idx = 0#32 := rfl
@[simp] theorem accept_nLat : s.accept.nLat = BitVec.ofNat 32 s.pixelCount := rfl
@[simp] theorem accept_wLat : s.accept.wLat = s.src.w := rfl
@[simp] theorem accept_bppLat : s.accept.bppLat = s.bpp.setWidth 6 := rfl
@[simp] theorem accept_oorLat : s.accept.oorLat = false := rfl
@[simp] theorem accept_src : s.accept.src = s.src := rfl
@[simp] theorem accept_pending : s.accept.pending = s.pending := rfl
@[simp] theorem accept_responses : s.accept.responses = s.responses := rfl
@[simp] theorem accept_word (j : Nat) : s.accept.word j = s.word j := rfl

/-! ### `advance` -/

@[simp] theorem advance_params : s.advance.params = s.params := rfl
@[simp] theorem advance_bmp : s.advance.bmp = s.bmp := rfl
@[simp] theorem advance_bpp : s.advance.bpp = s.bpp := rfl
@[simp] theorem advance_result : s.advance.result = s.result := rfl
@[simp] theorem advance_oor : s.advance.oor = s.oor := rfl
@[simp] theorem advance_phase : s.advance.phase = s.phase := rfl
@[simp] theorem advance_idx : s.advance.idx = s.idx + 1#32 := rfl
@[simp] theorem advance_nLat : s.advance.nLat = s.nLat := rfl
@[simp] theorem advance_wLat : s.advance.wLat = s.wLat := rfl
@[simp] theorem advance_bppLat : s.advance.bppLat = s.bppLat := rfl
@[simp] theorem advance_oorLat : s.advance.oorLat = s.oorLat := rfl
@[simp] theorem advance_src : s.advance.src = s.src := rfl
@[simp] theorem advance_pending : s.advance.pending = s.pending := rfl
@[simp] theorem advance_responses : s.advance.responses = s.responses := rfl
@[simp] theorem advance_word (j : Nat) : s.advance.word j = s.word j := rfl

/-! ### `complete` -/

@[simp] theorem complete_params : s.complete.params = s.params := rfl
@[simp] theorem complete_bmp : s.complete.bmp = s.bmp := rfl
@[simp] theorem complete_bpp : s.complete.bpp = s.bpp := rfl
@[simp] theorem complete_result : s.complete.result = (completionCode s.oorLat).bits := rfl
@[simp] theorem complete_oor : s.complete.oor = stickyOor s.oor s.oorLat := rfl
@[simp] theorem complete_phase : s.complete.phase = .idle := rfl
@[simp] theorem complete_idx : s.complete.idx = 0#32 := rfl
@[simp] theorem complete_nLat : s.complete.nLat = s.nLat := rfl
@[simp] theorem complete_wLat : s.complete.wLat = s.wLat := rfl
@[simp] theorem complete_bppLat : s.complete.bppLat = s.bppLat := rfl
@[simp] theorem complete_oorLat : s.complete.oorLat = s.oorLat := rfl
@[simp] theorem complete_src : s.complete.src = s.src := rfl
@[simp] theorem complete_pending : s.complete.pending = s.pending := rfl
@[simp] theorem complete_responses : s.complete.responses = s.responses := rfl
@[simp] theorem complete_word (j : Nat) : s.complete.word j = s.word j := rfl

/-! ### `mergeField` and `mergePixel` -/

@[simp] theorem mergeField_params (p : PixelField) : (s.mergeField p).params = s.params := by
  unfold State.mergeField; split <;> rfl
@[simp] theorem mergeField_bpp (p : PixelField) : (s.mergeField p).bpp = s.bpp := by
  unfold State.mergeField; split <;> rfl
@[simp] theorem mergeField_result (p : PixelField) : (s.mergeField p).result = s.result := by
  unfold State.mergeField; split <;> rfl
@[simp] theorem mergeField_oor (p : PixelField) : (s.mergeField p).oor = s.oor := by
  unfold State.mergeField; split <;> rfl
@[simp] theorem mergeField_phase (p : PixelField) : (s.mergeField p).phase = s.phase := by
  unfold State.mergeField; split <;> rfl
@[simp] theorem mergeField_idx (p : PixelField) : (s.mergeField p).idx = s.idx := by
  unfold State.mergeField; split <;> rfl
@[simp] theorem mergeField_nLat (p : PixelField) : (s.mergeField p).nLat = s.nLat := by
  unfold State.mergeField; split <;> rfl
@[simp] theorem mergeField_wLat (p : PixelField) : (s.mergeField p).wLat = s.wLat := by
  unfold State.mergeField; split <;> rfl
@[simp] theorem mergeField_bppLat (p : PixelField) : (s.mergeField p).bppLat = s.bppLat := by
  unfold State.mergeField; split <;> rfl
@[simp] theorem mergeField_src (p : PixelField) : (s.mergeField p).src = s.src := by
  unfold State.mergeField; split <;> rfl
@[simp] theorem mergeField_pending (p : PixelField) : (s.mergeField p).pending = s.pending := by
  unfold State.mergeField; split <;> rfl
@[simp] theorem mergeField_responses (p : PixelField) : (s.mergeField p).responses = s.responses := by
  unfold State.mergeField; split <;> rfl

@[simp] theorem mergePixel_params (i v : Nat) : (s.mergePixel i v).params = s.params :=
  mergeField_params s _
@[simp] theorem mergePixel_bpp (i v : Nat) : (s.mergePixel i v).bpp = s.bpp :=
  mergeField_bpp s _
@[simp] theorem mergePixel_result (i v : Nat) : (s.mergePixel i v).result = s.result :=
  mergeField_result s _
@[simp] theorem mergePixel_oor (i v : Nat) : (s.mergePixel i v).oor = s.oor :=
  mergeField_oor s _
@[simp] theorem mergePixel_phase (i v : Nat) : (s.mergePixel i v).phase = s.phase :=
  mergeField_phase s _
@[simp] theorem mergePixel_idx (i v : Nat) : (s.mergePixel i v).idx = s.idx :=
  mergeField_idx s _
@[simp] theorem mergePixel_nLat (i v : Nat) : (s.mergePixel i v).nLat = s.nLat :=
  mergeField_nLat s _
@[simp] theorem mergePixel_wLat (i v : Nat) : (s.mergePixel i v).wLat = s.wLat :=
  mergeField_wLat s _
@[simp] theorem mergePixel_bppLat (i v : Nat) : (s.mergePixel i v).bppLat = s.bppLat :=
  mergeField_bppLat s _
@[simp] theorem mergePixel_src (i v : Nat) : (s.mergePixel i v).src = s.src :=
  mergeField_src s _
@[simp] theorem mergePixel_pending (i v : Nat) : (s.mergePixel i v).pending = s.pending :=
  mergeField_pending s _
@[simp] theorem mergePixel_responses (i v : Nat) : (s.mergePixel i v).responses = s.responses :=
  mergeField_responses s _

/-! ### Reading a word after an update of the Bitmap Buffer -/

@[simp] theorem clearBitmap_word (k : Nat) : s.clearBitmap.word k = 0#32 := rfl
@[simp] theorem blockReset_word (k : Nat) : s.blockReset.word k = 0#32 := rfl

end Sys2Proof.Laws
end

