-- ==== Sys2Proof/Laws/Ops.lean ====
section
/-! SUPPORT. For each shared operation, once, everything it can do; and each meaning as one equation. -/
namespace Sys2Proof.Laws

open Sys2Proof.Machine

variable {s t : State}

/-! ### The Bitmap Buffer through the state -/

/-- A word after a store: the stored one at its index, every other as before. -/
theorem setWord_word (hs : s.bmp.wf) (k : Nat) (v : Word) (j : Nat) :
    (s.setWord k v).word j = if j = k then v else s.word j :=
  read_write s.bmp hs k v j

theorem loadWord_below {k : Nat} (h : k < s.params.bufWords) : s.loadWord k = some (s.word k) := if_pos h

theorem loadWord_beyond {k : Nat} (h : s.params.bufWords ≤ k) : s.loadWord k = none := if_neg (by omega)

theorem storeWord_below {k : Nat} (h : k < s.params.bufWords) (v : Word) :
    s.storeWord k v = some (s.setWord k v) := if_pos h

theorem storeWord_beyond {k : Nat} (h : s.params.bufWords ≤ k) (v : Word) : s.storeWord k v = none :=
  if_neg (by omega)

/-! ### The framebuffer writer -/

theorem mergeField_below {p : PixelField} (h : p.word < s.params.bufWords) :
    s.mergeField p = s.setWord p.word (s.word p.word ||| BitVec.ofNat 32 p.value) := if_pos h

theorem mergeField_beyond {p : PixelField} (h : s.params.bufWords ≤ p.word) :
    s.mergeField p = { s with oorLat := true } := if_neg (by omega)

/-- The words after one field is merged: its own word takes the field's bits, if it exists. -/
theorem mergeField_word (hs : s.bmp.wf) (p : PixelField) (j : Nat) :
    (s.mergeField p).word j =
      if j = p.word ∧ p.word < s.params.bufWords then s.word j ||| BitVec.ofNat 32 p.value else s.word j := by
  by_cases h : p.word < s.params.bufWords
  · rw [mergeField_below h, setWord_word hs]
    by_cases hj : j = p.word
    · simp [hj, h]
    · simp [hj]
  · rw [mergeField_beyond (by omega), if_neg (by tauto)]
    rfl

/-- The out-of-range mark after one field is merged. -/
theorem mergeField_oorLat (p : PixelField) :
    (s.mergeField p).oorLat = (s.oorLat || decide (s.params.bufWords ≤ p.word)) := by
  by_cases h : p.word < s.params.bufWords
  · rw [mergeField_below h]
    simp [h]
  · rw [mergeField_beyond (by omega)]
    simp; omega

theorem mergeField_wf (hs : s.bmp.wf) (p : PixelField) : (s.mergeField p).bmp.wf := by
  by_cases h : p.word < s.params.bufWords
  · rw [mergeField_below h]
    exact write_wf hs _ _
  · rw [mergeField_beyond (by omega)]
    exact hs

theorem mergeField_bounded (hs : ∀ c ∈ s.bmp, c.1 < s.params.bufWords) (p : PixelField) :
    ∀ c ∈ (s.mergeField p).bmp, c.1 < s.params.bufWords := by
  by_cases h : p.word < s.params.bufWords
  · rw [mergeField_below h]
    exact write_bounded hs h _
  · rw [mergeField_beyond (by omega)]
    exact hs

/-! ### PACK's checks -/

/-- The three checks in their order, and what is known when all pass. -/
theorem packCheck_cases (s : State) :
    (s.src.available = false ∧ s.packCheck = some .sourceUnavailable) ∨
    (s.src.available = true ∧ s.src.indexed = false ∧ s.packCheck = some .unsupportedFormat) ∨
    (s.src.available = true ∧ s.src.indexed = true ∧ legalDepth s.bpp.toNat = false ∧
      s.packCheck = some .invalidDepth) ∨
    (s.src.available = true ∧ s.src.indexed = true ∧ legalDepth s.bpp.toNat = true ∧ s.packCheck = none) := by
  unfold State.packCheck
  cases s.src.available <;> cases s.src.indexed <;> cases legalDepth s.bpp.toNat <;> simp

theorem packCheck_none_iff :
    s.packCheck = none ↔
      s.src.available = true ∧ s.src.indexed = true ∧ legalDepth s.bpp.toNat = true := by
  unfold State.packCheck
  cases s.src.available <;> cases s.src.indexed <;> cases legalDepth s.bpp.toNat <;> simp

theorem legalDepth_iff {b : Nat} :
    legalDepth b = true ↔ b = 1 ∨ b = 2 ∨ b = 4 ∨ b = 8 ∨ b = 16 ∨ b = 32 := by
  simp [legalDepth, legalDepths]

/-- The pixel count fits the 32-bit latch: W and H have 16 bits each (00_scope.md rule R6). -/
theorem pixelCount_lt (s : State) : s.pixelCount < 2 ^ 32 := by
  unfold State.pixelCount Source.pixelCount
  have h : s.src.w.toNat * s.src.h.toNat ≤ 65535 * 65535 :=
    Nat.mul_le_mul (by have := s.src.w.isLt; omega) (by have := s.src.h.isLt; omega)
  omega

@[simp] theorem accept_nLat_toNat (s : State) : s.accept.nLat.toNat = s.pixelCount :=
  Nat.mod_eq_of_lt (pixelCount_lt s)

/-- A legal depth fits the 6-bit latch (10_state.md rule R19). -/
theorem accept_bppLat_toNat (h : legalDepth s.bpp.toNat = true) : s.accept.bppLat.toNat = s.bpp.toNat := by
  have h6 : s.bpp.toNat < 2 ^ 6 := by rcases legalDepth_iff.mp h with h | h | h | h | h | h <;> omega
  simp only [accept_bppLat, BitVec.toNat_setWidth]
  exact Nat.mod_eq_of_lt h6

/-! ### The meanings as equations -/

theorem exec_rdStatus (s : State) : exec .rdStatus s = .next (s.respond (.data s.status)) := rfl
theorem exec_rdBpp (s : State) : exec .rdBpp s = .next (s.respond (.data s.bpp)) := rfl
theorem exec_wrBpp (v : Word) (s : State) : exec (.wrBpp v) s = .next ((s.setBpp v).respond .done) := rfl
theorem exec_err (rw' : Rw) (a v : Word) (s : State) : exec (.err rw' a v) s = .next (s.respond .err) := rfl
theorem exec_clear (s : State) : exec .clear s = .next ((s.clearBitmap.setResult .ok).respond .done) := rfl
theorem exec_reset (s : State) : exec .reset s = .next (s.blockReset.respond .done) := rfl
theorem exec_illegal (c : Word) (s : State) :
    exec (.illegal c) s = .next ((s.setResult .illegalCommand).respond .done) := rfl

theorem exec_rdBmp (k : BitVec 31) (s : State) :
    exec (.rdBmp k) s =
      .next (s.respond (if k.toNat < s.params.bufWords then .data (s.word k.toNat) else .err)) := by
  show execRdBmp k s = _
  unfold execRdBmp State.loadWord windowWord
  split_ifs <;> rfl

theorem exec_wrBmp (k : BitVec 31) (v : Word) (s : State) :
    exec (.wrBmp k v) s =
      .next (if k.toNat < s.params.bufWords then (s.setWord k.toNat v).respond .done else s.respond .err) := by
  show execWrBmp k v s = _
  unfold execWrBmp State.storeWord windowWord
  split_ifs <;> rfl

theorem exec_pack_raises {c : ResultCode} (h : s.packCheck = some c) :
    exec .pack s = .next ((s.setResult c).respond .done) := by
  show execPack s = _
  unfold execPack
  rw [h]
  rfl

theorem exec_pack_accepts (h : s.packCheck = none) : exec .pack s = .next (s.accept.respond .done) := by
  show execPack s = _
  unfold execPack
  rw [h]

theorem exec_wrCmd (c : Word) (s : State) : exec (.wrCmd c) s = exec (decodeCommand c).toInstr s := by
  show execWrCmd c s = _
  unfold execWrCmd
  cases decodeCommand c <;> rfl

end Sys2Proof.Laws
end

