-- ==== Sys2Proof/Laws/Engine.lean ====
section
/-! SUPPORT. What merging one pixel and merging a list of pixels can do (41_pack.md rules R95 and R98), and the
bits of `P(src, bpp)`. -/
namespace Sys2Proof.Laws

open Sys2Proof.Machine

variable {s : State}

/-- Merging a pixel writes the buffer and the out-of-range mark, nothing else. -/
theorem mergePixel_frame (s : State) (i v : Nat) :
    s.mergePixel i v = { s with bmp := (s.mergePixel i v).bmp, oorLat := (s.mergePixel i v).oorLat } := by
  simp only [State.mergePixel, State.mergeField, State.setWord]
  split <;> rfl

@[simp] theorem mergeAll_nil (s : State) : s.mergeAll [] = s := rfl

theorem mergeAll_cons (s : State) (i : Nat) (order : List Nat) :
    s.mergeAll (i :: order) = (s.mergePixel i (s.src.byte i)).mergeAll order := rfl

/-- Merging pixels writes the buffer and the out-of-range mark, nothing else. -/
theorem mergeAll_frame (order : List Nat) (s : State) :
    s.mergeAll order =
      { s with bmp := (s.mergeAll order).bmp, oorLat := (s.mergeAll order).oorLat } := by
  induction order generalizing s with
  | nil => rfl
  | cons i order ih => rw [mergeAll_cons, ih, mergePixel_frame]

/-- The field a pixel-step merges is the field of the presented source, while `w_lat` is its width. -/
theorem pixelField_latched (hw : s.wLat = s.src.w) (i : Nat) :
    pixelField s.wLat.toNat s.bppLat.toNat i (s.src.byte i) = s.src.field s.bppLat.toNat i := by
  rw [hw]
  rfl

theorem mergeAll_wf (hs : s.bmp.wf) (order : List Nat) : (s.mergeAll order).bmp.wf := by
  induction order generalizing s with
  | nil => exact hs
  | cons i order ih => exact ih (mergeField_wf hs _)

/-- The out-of-range mark after the pixels of a list. -/
theorem mergeAll_oorLat (hw : s.wLat = s.src.w) (order : List Nat) :
    (s.mergeAll order).oorLat =
      (s.oorLat || order.any fun i => decide (s.params.bufWords ≤ (s.src.field s.bppLat.toNat i).word)) := by
  induction order generalizing s with
  | nil => simp
  | cons i order ih =>
    rw [mergeAll_cons, ih (by simpa using hw)]
    simp only [mergePixel_params, mergePixel_src, mergePixel_bppLat, List.any_cons]
    rw [show (s.mergePixel i (s.src.byte i)).oorLat = _ from mergeField_oorLat _, pixelField_latched hw,
      Bool.or_assoc]

/-- The bits of `P(src, bpp)[k]`: those of the fields sent to word `k`. -/
theorem packedWord_getLsbD (src : Source) (bpp n k : Nat) {j : Nat} (hj : j < 32) :
    (src.packedWord bpp n k).getLsbD j = true ↔
      ∃ i, i < n ∧ (src.field bpp i).word = k ∧ (src.field bpp i).value.testBit j = true := by
  have gen : ∀ (order : List Nat) (a : Word),
      (order.foldl
        (fun acc i => if (src.field bpp i).word = k then acc ||| BitVec.ofNat 32 (src.field bpp i).value else acc)
        a).getLsbD j = true ↔
      a.getLsbD j = true ∨
        ∃ i ∈ order, (src.field bpp i).word = k ∧ (src.field bpp i).value.testBit j = true := by
    intro order
    induction order with
    | nil => simp
    | cons x order ih =>
      intro a
      rw [List.foldl_cons, ih]
      by_cases h : (src.field bpp x).word = k
      · have e : (BitVec.ofNat 32 (src.field bpp x).value).getLsbD j = (src.field bpp x).value.testBit j := by
          rw [BitVec.getLsbD_ofNat]
          simp [hj]
        rw [if_pos h, BitVec.getLsbD_or, e, Bool.or_eq_true, or_assoc]
        simp [h]
      · simp [h]
  unfold Source.packedWord
  rw [gen]
  simp

end Sys2Proof.Laws
end

