-- ==== Sys2Proof/Laws/Packer.lean ====
section
/-! SUPPORT. The bit-packer's arithmetic: what a legal depth gives, and which bits a field holds. -/
namespace Sys2Proof.Laws

open Sys2Proof.Machine

/-- At a legal depth the division of rule R90 is exact. -/
theorem bpi_mul {b : Nat} (h : legalDepth b = true) : bpi b * b = 32 := by
  rcases legalDepth_iff.mp h with rfl | rfl | rfl | rfl | rfl | rfl <;> rfl

theorem bpi_pos {b : Nat} (h : legalDepth b = true) : 0 < bpi b := by
  rcases legalDepth_iff.mp h with rfl | rfl | rfl | rfl | rfl | rfl <;> decide

theorem depth_pos {b : Nat} (h : legalDepth b = true) : 0 < b := by
  rcases legalDepth_iff.mp h with rfl | rfl | rfl | rfl | rfl | rfl <;> decide

theorem depth_le {b : Nat} (h : legalDepth b = true) : b ≤ 32 := by
  rcases legalDepth_iff.mp h with rfl | rfl | rfl | rfl | rfl | rfl <;> decide

/-- A position is its word index and its place in the word (rule R91). -/
theorem wordIndex_add (pos b : Nat) : wordIndex pos b * bpi b + pos % bpi b = pos := by
  rw [Nat.mul_comm]
  exact Nat.div_add_mod pos (bpi b)

/-- Masking keeps the low bits (rule R92). -/
theorem masked_testBit (v b j : Nat) : (v &&& mask b).testBit j = (decide (j < b) && v.testBit j) := by
  rw [mask, Nat.testBit_and, Nat.testBit_two_pow_sub_one, Bool.and_comm]

/-- The bits of a field (rule R93): those of the masked value, from the shift on. -/
theorem fieldValue_testBit (pos b v j : Nat) :
    (fieldValue pos b v).testBit j =
      (decide (fieldShift pos b ≤ j) && (decide (j - fieldShift pos b < b) && v.testBit (j - fieldShift pos b))) := by
  rw [fieldValue, Nat.testBit_shiftLeft, masked_testBit]

/-- The bits of a word that a read-back takes (rule R100). -/
theorem unpack_testBit (m : Memory) (pos b j : Nat) :
    (unpack m pos b).testBit j =
      (decide (j < b) && (m.read (wordIndex pos b)).getLsbD (fieldShift pos b + j)) := by
  rw [unpack, masked_testBit, Nat.testBit_shiftRight]
  rfl

end Sys2Proof.Laws
end

