-- ==== Sys2Proof/Laws/PerInstr.lean ====
section
/-! SUPPORT. The statements made once per instruction: an encoding reads back, and an encoding is taken by the row
of spec/opcode_table.json that the instruction stands for. -/
namespace Sys2Proof.Laws

/-- The encoding of a well-formed instruction decodes to it. -/
def RoundTrip.Statement (i : Instr) : Prop := i.wellFormed = true → decodeBits (encode i) = i

/-- The match and mask rows of 30_encoding.md rule R61 give the encoding of a well-formed instruction the
mnemonic of its own row. -/
def EncodedRow.Statement (i : Instr) : Prop :=
  i.wellFormed = true →
    match encode i with
    | .formatH q => rowOf rowsH "ERR" q = i.mnemonic
    | .formatC c => rowOf rowsC "ILLEGAL" c = i.mnemonic

/-! ### Format C by the value of the command word -/

theorem decodeCommand_unassigned {c : Word} (h : unassignedCommand c = true) :
    decodeCommand c = .illegal c := by
  obtain ⟨hop, hres⟩ := command_fields c
  have hne : c.toNat ≠ 1 ∧ c.toNat ≠ 2 ∧ c.toNat ≠ 3 := by
    simp only [unassignedCommand, Bool.and_eq_true, bne_iff_ne, ne_eq] at h
    refine ⟨fun e => h.1.1 ?_, fun e => h.1.2 ?_, fun e => h.2 ?_⟩ <;>
      exact BitVec.eq_of_toNat_eq e
  unfold decodeCommand
  split_ifs with h1 h2 h3 h4
  · rfl
  all_goals try rfl
  all_goals
    exfalso
    have h0 : (commandReserved c).toNat = 0 := by
      rw [not_not.mp h1]; rfl
    first
      | (have h5 := congrArg BitVec.toNat h2; rw [hop] at h5
         simp only [BitVec.toNat_ofNat] at h5; omega)
      | (have h5 := congrArg BitVec.toNat h3; rw [hop] at h5
         simp only [BitVec.toNat_ofNat] at h5; omega)
      | (have h5 := congrArg BitVec.toNat h4; rw [hop] at h5
         simp only [BitVec.toNat_ofNat] at h5; omega)

/-! ### Format H by the fields of the request -/

/-- A row that fixes `rw` and the whole address takes exactly that pair. -/
theorem register_row_takes (name : String) (n : Nat) (hn : n < 2 ^ 33) (q : BitVec 65) :
    TableRow.takes ⟨name, BitVec.ofNat 65 (n * 2 ^ 32), 0x1FFFFFFFF00000000#65⟩ q =
      decide (q.toNat / 2 ^ 32 = n) := by
  have hq := q.isLt
  have hmask : (q &&& 0x1FFFFFFFF00000000#65).toNat = q.toNat / 2 ^ 32 * 2 ^ 32 := by
    have hm : (0x1FFFFFFFF00000000 : Nat) = (2 ^ 33 - 1) <<< 32 := by decide
    apply Nat.eq_of_testBit_eq
    intro j
    rw [BitVec.toNat_and, BitVec.toNat_ofNat, Nat.mod_eq_of_lt (by norm_num), hm, Nat.testBit_and,
      Nat.testBit_shiftLeft, Nat.testBit_two_pow_sub_one, ← Nat.shiftLeft_eq, Nat.testBit_shiftLeft,
      ← Nat.shiftRight_eq_div_pow, Nat.testBit_shiftRight]
    by_cases hj : 32 ≤ j
    · by_cases hj' : j - 32 < 33
      · simp [hj, hj', Nat.add_sub_of_le hj]
      · have : q.toNat.testBit j = false :=
          Nat.testBit_lt_two_pow (lt_of_lt_of_le hq (Nat.pow_le_pow_right (by norm_num) (by omega)))
        simp [hj, hj', Nat.add_sub_of_le hj, this]
    · simp [hj]
  rw [Bool.eq_iff_iff, decide_eq_true_eq]
  simp only [TableRow.takes, beq_iff_eq]
  rw [← BitVec.toNat_inj, hmask, BitVec.toNat_ofNat, Nat.mod_eq_of_lt (by omega)]
  omega

/-- A row that fixes `rw` and `addr[31]` takes exactly that pair. -/
theorem window_row_takes (name : String) (b : Nat) (hb : b = 1 ∨ b = 3) (q : BitVec 65) :
    TableRow.takes ⟨name, BitVec.ofNat 65 (b * 2 ^ 63), 0x18000000000000000#65⟩ q =
      decide (q.toNat / 2 ^ 63 = b) := by
  have hq := q.isLt
  have hmask : (q &&& 0x18000000000000000#65).toNat = q.toNat / 2 ^ 63 * 2 ^ 63 := by
    have hm : (0x18000000000000000 : Nat) = (2 ^ 2 - 1) <<< 63 := by decide
    apply Nat.eq_of_testBit_eq
    intro j
    rw [BitVec.toNat_and, BitVec.toNat_ofNat, Nat.mod_eq_of_lt (by norm_num), hm, Nat.testBit_and,
      Nat.testBit_shiftLeft, Nat.testBit_two_pow_sub_one, ← Nat.shiftLeft_eq, Nat.testBit_shiftLeft,
      ← Nat.shiftRight_eq_div_pow, Nat.testBit_shiftRight]
    by_cases hj : 63 ≤ j
    · by_cases hj' : j - 63 < 2
      · simp [hj, hj', Nat.add_sub_of_le hj]
      · have : q.toNat.testBit j = false :=
          Nat.testBit_lt_two_pow (lt_of_lt_of_le hq (Nat.pow_le_pow_right (by norm_num) (by omega)))
        simp [hj, hj', Nat.add_sub_of_le hj, this]
    · simp [hj]
  rw [Bool.eq_iff_iff, decide_eq_true_eq]
  simp only [TableRow.takes, beq_iff_eq]
  rw [← BitVec.toNat_inj, hmask, BitVec.toNat_ofNat, Nat.mod_eq_of_lt (by rcases hb with rfl | rfl <;> norm_num)]
  omega

/-- The row of a request by its two deciding numbers: `rw` and `addr` together, and `rw` and `addr[31]`. -/
theorem rowOf_rowsH (q : BitVec 65) :
    rowOf rowsH "ERR" q =
      if q.toNat / 2 ^ 32 = 2 ^ 32 then "WR.CMD"
      else if q.toNat / 2 ^ 32 = 1 then "RD.STATUS"
      else if q.toNat / 2 ^ 32 = 2 then "RD.BPP"
      else if q.toNat / 2 ^ 32 = 2 ^ 32 + 2 then "WR.BPP"
      else if q.toNat / 2 ^ 63 = 1 then "RD.BMP"
      else if q.toNat / 2 ^ 63 = 3 then "WR.BMP"
      else "ERR" := by
  have h1 := register_row_takes "WR.CMD" (2 ^ 32) (by norm_num) q
  have h2 := register_row_takes "RD.STATUS" 1 (by norm_num) q
  have h3 := register_row_takes "RD.BPP" 2 (by norm_num) q
  have h4 := register_row_takes "WR.BPP" (2 ^ 32 + 2) (by norm_num) q
  have h5 := window_row_takes "RD.BMP" 1 (by norm_num) q
  have h6 := window_row_takes "WR.BMP" 3 (by norm_num) q
  have unfolded : rowOf rowsH "ERR" q =
      if TableRow.takes ⟨"WR.CMD", BitVec.ofNat 65 (2 ^ 32 * 2 ^ 32), 0x1FFFFFFFF00000000#65⟩ q then "WR.CMD"
      else if TableRow.takes ⟨"RD.STATUS", BitVec.ofNat 65 (1 * 2 ^ 32), 0x1FFFFFFFF00000000#65⟩ q then "RD.STATUS"
      else if TableRow.takes ⟨"RD.BPP", BitVec.ofNat 65 (2 * 2 ^ 32), 0x1FFFFFFFF00000000#65⟩ q then "RD.BPP"
      else if TableRow.takes ⟨"WR.BPP", BitVec.ofNat 65 ((2 ^ 32 + 2) * 2 ^ 32), 0x1FFFFFFFF00000000#65⟩ q then "WR.BPP"
      else if TableRow.takes ⟨"RD.BMP", BitVec.ofNat 65 (1 * 2 ^ 63), 0x18000000000000000#65⟩ q then "RD.BMP"
      else if TableRow.takes ⟨"WR.BMP", BitVec.ofNat 65 (3 * 2 ^ 63), 0x18000000000000000#65⟩ q then "WR.BMP"
      else "ERR" := rfl
  rw [unfolded, h1, h2, h3, h4, h5, h6]
  simp only [decide_eq_true_eq]

/-! ### The families -/

theorem RoundTrip.wrCmd (c : Word) : RoundTrip.Statement (.wrCmd c) := fun _ => by
  simp only [encode, decodeBits, deserialise_serialise]; rfl

theorem RoundTrip.rdStatus : RoundTrip.Statement .rdStatus := fun _ => by decide

theorem RoundTrip.rdBpp : RoundTrip.Statement .rdBpp := fun _ => by decide

theorem RoundTrip.wrBpp (v : Word) : RoundTrip.Statement (.wrBpp v) := fun _ => by
  simp only [encode, decodeBits, deserialise_serialise]; rfl

/-- A window address is none of the three register addresses. -/
theorem windowAddr_ne_register (k : BitVec 31) :
    windowAddr k ≠ cmdAddr ∧ windowAddr k ≠ statusAddr ∧ windowAddr k ≠ bppAddr := by
  have h := windowAddr_toNat k
  refine ⟨fun e => ?_, fun e => ?_, fun e => ?_⟩ <;>
    (rw [e] at h; simp [cmdAddr, statusAddr, bppAddr] at h; try omega)

theorem RoundTrip.rdBmp (k : BitVec 31) : RoundTrip.Statement (.rdBmp k) := fun _ => by
  obtain ⟨-, h1, h2⟩ := windowAddr_ne_register k
  simp [encode, decodeBits, deserialise_serialise, requestOf, decode, h1, h2, inWindow_windowAddr,
    windowIndex_windowAddr]

theorem RoundTrip.wrBmp (k : BitVec 31) (v : Word) : RoundTrip.Statement (.wrBmp k v) := fun _ => by
  obtain ⟨h0, -, h2⟩ := windowAddr_ne_register k
  simp [encode, decodeBits, deserialise_serialise, requestOf, decode, h0, h2, inWindow_windowAddr,
    windowIndex_windowAddr]

/-- An unmapped pair is no register of its direction and no window address. -/
theorem unmappedPair_facts {rw' : Rw} {a : Word} (h : unmappedPair rw' a = true) :
    inWindow a = false ∧ a ≠ bppAddr ∧ (rw' = .rd → a ≠ statusAddr) ∧ (rw' = .wr → a ≠ cmdAddr) := by
  have hw : inWindow a = false ↔ a.toNat < 0x80000000 := by
    rw [← Bool.not_eq_true, inWindow_iff, Nat.not_le]
  simp only [unmappedPair, Bool.or_eq_true, Bool.and_eq_true, decide_eq_true_eq, beq_iff_eq] at h
  rw [hw]
  rcases h with (⟨h3, h4⟩ | ⟨rfl, rfl⟩) | ⟨rfl, rfl⟩
  · refine ⟨h4, ?_, fun _ => ?_, fun _ => ?_⟩ <;> rintro rfl <;>
      simp [cmdAddr, statusAddr, bppAddr] at h3
  · decide
  · decide

theorem RoundTrip.err (rw' : Rw) (a v : Word) : RoundTrip.Statement (.err rw' a v) := fun h => by
  simp only [Instr.wellFormed, Bool.and_eq_true] at h
  obtain ⟨hm, hd⟩ := h
  obtain ⟨h1, h2, h3, h4⟩ := unmappedPair_facts hm
  cases rw' with
  | rd =>
    have hv : v = 0#32 := by simpa [ignoredDataIsZero] using hd
    simp [encode, decodeBits, deserialise_serialise, requestOf, decode, h1, h2, h3 rfl, keptData, hv]
  | wr => simp [encode, decodeBits, deserialise_serialise, requestOf, decode, h1, h2, h4 rfl, keptData]

theorem RoundTrip.clear : RoundTrip.Statement .clear := fun _ => by decide

theorem RoundTrip.pack : RoundTrip.Statement .pack := fun _ => by decide

theorem RoundTrip.reset : RoundTrip.Statement .reset := fun _ => by decide

theorem RoundTrip.illegal (c : Word) : RoundTrip.Statement (.illegal c) := fun h => by
  simp only [encode, decodeBits, decodeCommand_unassigned h]
  rfl

/-! ### The rows -/

/-- The deciding numbers of a serialised request. -/
theorem serialise_div (q : Request) :
    (serialise q).toNat / 2 ^ 32 = (rwBit q.rw).toNat * 2 ^ 32 + q.addr.toNat ∧
    (serialise q).toNat / 2 ^ 63 = (rwBit q.rw).toNat * 2 + q.addr.toNat / 2 ^ 31 := by
  have hd := q.wdata.isLt
  have ha := q.addr.isLt
  rw [serialise_toNat]
  constructor <;> omega

theorem EncodedRow.wrCmd (c : Word) : EncodedRow.Statement (.wrCmd c) := fun _ => by
  obtain ⟨h, -⟩ := serialise_div (requestOf (.wrCmd c))
  have ha : (requestOf (.wrCmd c)).addr.toNat = 0 := rfl
  have hr : (rwBit (requestOf (.wrCmd c)).rw).toNat = 1 := rfl
  rw [ha, hr] at h
  show rowOf rowsH "ERR" _ = _
  rw [rowOf_rowsH, h, if_pos (by omega)]
  rfl

theorem EncodedRow.rdStatus : EncodedRow.Statement .rdStatus := fun _ => by
  show rowOf rowsH "ERR" (serialise (requestOf .rdStatus)) = "RD.STATUS"
  decide

theorem EncodedRow.rdBpp : EncodedRow.Statement .rdBpp := fun _ => by
  show rowOf rowsH "ERR" (serialise (requestOf .rdBpp)) = "RD.BPP"
  decide

theorem EncodedRow.wrBpp (v : Word) : EncodedRow.Statement (.wrBpp v) := fun _ => by
  obtain ⟨h, -⟩ := serialise_div (requestOf (.wrBpp v))
  have ha : (requestOf (.wrBpp v)).addr.toNat = 2 := rfl
  have hr : (rwBit (requestOf (.wrBpp v)).rw).toNat = 1 := rfl
  rw [ha, hr] at h
  show rowOf rowsH "ERR" _ = _
  rw [rowOf_rowsH, h, if_neg (by omega), if_neg (by omega), if_neg (by omega), if_pos (by omega)]
  rfl

theorem EncodedRow.rdBmp (k : BitVec 31) : EncodedRow.Statement (.rdBmp k) := fun _ => by
  obtain ⟨h, h'⟩ := serialise_div (requestOf (.rdBmp k))
  have hk := k.isLt
  have ha : (requestOf (.rdBmp k)).addr.toNat = 0x80000000 + k.toNat := windowAddr_toNat k
  have hr : (rwBit (requestOf (.rdBmp k)).rw).toNat = 0 := rfl
  rw [ha, hr] at h h'
  show rowOf rowsH "ERR" _ = _
  rw [rowOf_rowsH, h, h', if_neg (by omega), if_neg (by omega), if_neg (by omega), if_neg (by omega),
    if_pos (by omega)]
  rfl

theorem EncodedRow.wrBmp (k : BitVec 31) (v : Word) : EncodedRow.Statement (.wrBmp k v) := fun _ => by
  obtain ⟨h, h'⟩ := serialise_div (requestOf (.wrBmp k v))
  have hk := k.isLt
  have ha : (requestOf (.wrBmp k v)).addr.toNat = 0x80000000 + k.toNat := windowAddr_toNat k
  have hr : (rwBit (requestOf (.wrBmp k v)).rw).toNat = 1 := rfl
  rw [ha, hr] at h h'
  show rowOf rowsH "ERR" _ = _
  rw [rowOf_rowsH, h, h', if_neg (by omega), if_neg (by omega), if_neg (by omega), if_neg (by omega),
    if_neg (by omega), if_pos (by omega)]
  rfl

theorem EncodedRow.err (rw' : Rw) (a v : Word) : EncodedRow.Statement (.err rw' a v) := fun hw => by
  simp only [Instr.wellFormed, Bool.and_eq_true] at hw
  have hm := hw.1
  obtain ⟨h, h'⟩ := serialise_div (requestOf (.err rw' a v))
  have ha : (requestOf (.err rw' a v)).addr = a := rfl
  have hr : (requestOf (.err rw' a v)).rw = rw' := rfl
  rw [ha, hr] at h h'
  simp only [unmappedPair, Bool.or_eq_true, Bool.and_eq_true, decide_eq_true_eq, beq_iff_eq] at hm
  show rowOf rowsH "ERR" _ = _
  rw [rowOf_rowsH, h, h']
  rcases hm with (⟨h3, h4⟩ | ⟨rfl, rfl⟩) | ⟨rfl, rfl⟩
  · cases rw' with
    | rd =>
      rw [rwBit_rd, if_neg (by omega), if_neg (by omega), if_neg (by omega), if_neg (by omega),
        if_neg (by omega), if_neg (by omega)]
      rfl
    | wr =>
      rw [rwBit_wr, if_neg (by omega), if_neg (by omega), if_neg (by omega), if_neg (by omega),
        if_neg (by omega), if_neg (by omega)]
      rfl
  · rw [rwBit_rd, show (0#32 : Word).toNat = 0 from rfl, if_neg (by omega), if_neg (by omega), if_neg (by omega),
      if_neg (by omega), if_neg (by omega), if_neg (by omega)]
    rfl
  · rw [rwBit_wr, show (1#32 : Word).toNat = 1 from rfl, if_neg (by omega), if_neg (by omega), if_neg (by omega),
      if_neg (by omega), if_neg (by omega), if_neg (by omega)]
    rfl

theorem EncodedRow.clear : EncodedRow.Statement .clear := fun _ => by
  show rowOf rowsC "ILLEGAL" 0x00000001#32 = "CLEAR"
  decide

theorem EncodedRow.pack : EncodedRow.Statement .pack := fun _ => by
  show rowOf rowsC "ILLEGAL" 0x00000002#32 = "PACK"
  decide

theorem EncodedRow.reset : EncodedRow.Statement .reset := fun _ => by
  show rowOf rowsC "ILLEGAL" 0x00000003#32 = "RESET"
  decide

theorem EncodedRow.illegal (c : Word) : EncodedRow.Statement (.illegal c) := fun h => by
  simp only [Instr.wellFormed, unassignedCommand, Bool.and_eq_true, bne_iff_ne, ne_eq] at h
  have hall : c &&& 0xFFFFFFFF#32 = c := by
    have : (0xFFFFFFFF#32 : Word) = BitVec.allOnes 32 := by decide
    rw [this, BitVec.and_allOnes]
  show rowOf rowsC "ILLEGAL" c = _
  simp [rowOf, rowsC, TableRow.takes, hall, h.1.1, h.1.2, h.2, Instr.mnemonic]

end Sys2Proof.Laws
end

