-- ==== Sys2Proof/Laws/Step.lean ====
section
/-! SUPPORT. What a step can do, said once: an executed transaction, a step of the engine, a step of the whole
machine. -/
namespace Sys2Proof.Laws

open Sys2Proof.Machine Sys2Proof.Safety

variable {s t : State}

/-- Everything an executed transaction can do: it always answers a next state, and that is one of these. -/
theorem exec_cases (i : Instr) (s : State) : ∃ t, exec i s = .next t ∧
    ((∃ r, t = s.respond r) ∨
     (∃ v, t = (s.setBpp v).respond .done) ∨
     (∃ k v, k < s.params.bufWords ∧ t = (s.setWord k v).respond .done) ∨
     t = (s.clearBitmap.setResult .ok).respond .done ∨
     t = s.blockReset.respond .done ∨
     (∃ c, t = (s.setResult c).respond .done) ∨
     (s.packCheck = none ∧ t = s.accept.respond .done)) := by
  have pack : ∃ t, exec .pack s = .next t ∧
      ((∃ c, t = (s.setResult c).respond .done) ∨ (s.packCheck = none ∧ t = s.accept.respond .done)) := by
    cases h : s.packCheck with
    | none => exact ⟨_, exec_pack_accepts h, .inr ⟨rfl, rfl⟩⟩
    | some c => exact ⟨_, exec_pack_raises h, .inl ⟨c, rfl⟩⟩
  cases i with
  | wrCmd c =>
    rw [exec_wrCmd]
    cases decodeCommand c with
    | clear => exact ⟨_, rfl, by tauto⟩
    | pack => obtain ⟨t, h, h'⟩ := pack; exact ⟨t, h, by tauto⟩
    | reset => exact ⟨_, rfl, by tauto⟩
    | illegal c => exact ⟨_, exec_illegal c s, .inr (.inr (.inr (.inr (.inr (.inl ⟨_, rfl⟩)))))⟩
  | rdStatus => exact ⟨_, rfl, .inl ⟨_, rfl⟩⟩
  | rdBpp => exact ⟨_, rfl, .inl ⟨_, rfl⟩⟩
  | wrBpp v => exact ⟨_, rfl, .inr (.inl ⟨v, rfl⟩)⟩
  | rdBmp k => exact ⟨_, exec_rdBmp k s, .inl ⟨_, rfl⟩⟩
  | wrBmp k v =>
    refine ⟨_, exec_wrBmp k v s, ?_⟩
    split_ifs with h
    · exact .inr (.inr (.inl ⟨_, _, h, rfl⟩))
    · exact .inl ⟨_, rfl⟩
  | err rw' a v => exact ⟨_, rfl, .inl ⟨_, rfl⟩⟩
  | clear => exact ⟨_, rfl, by tauto⟩
  | pack => obtain ⟨t, h, h'⟩ := pack; exact ⟨t, h, by tauto⟩
  | reset => exact ⟨_, rfl, by tauto⟩
  | illegal c => exact ⟨_, exec_illegal c s, .inr (.inr (.inr (.inr (.inr (.inl ⟨_, rfl⟩)))))⟩

/-- Everything one step of the engine can do when it answers a next state. -/
theorem engineStep_cases (h : engineStep s = .next t) :
    (s.idx < s.nLat ∧ s.divisible = true ∧
      ∃ v, s.src.byte? s.idx.toNat = some v ∧ t = (s.mergePixel s.idx.toNat v).advance) ∨
    (s.idx = s.nLat ∧ t = s.complete) := by
  unfold engineStep at h
  split_ifs at h with h1 h2
  · refine .inl ⟨h1, ?_⟩
    unfold pixelStep at h
    split_ifs at h with h3
    split at h
    · cases h
    · rename_i v hv
      cases h
      exact ⟨by simpa using h3, v, hv, rfl⟩
  · cases h
    exact .inr ⟨h2, rfl⟩

theorem engineStep_pixel {v : Nat} (h : s.idx < s.nLat) (hd : s.divisible = true)
    (hv : s.src.byte? s.idx.toNat = some v) :
    engineStep s = .next (s.mergePixel s.idx.toNat v).advance := by
  unfold engineStep pixelStep
  rw [if_pos h, if_neg (by simp [hd]), hv]

theorem engineStep_complete (h : s.idx = s.nLat) : engineStep s = .next s.complete := by
  unfold engineStep
  rw [if_neg (by simp [h]), if_pos h]

/-! ### The moves -/

theorem step_idle_nil (hp : s.phase = .idle) (h : s.pending = []) : step s = .next s := by
  simp [step, nextMove, idleMove, hp, h]

theorem step_idle_request {q : Request} {rest : List Event} (hp : s.phase = .idle)
    (h : s.pending = .request q :: rest) : step s = exec (decode q) (s.setPending rest) := by
  simp [step, nextMove, idleMove, hp, h]

theorem step_idle_present {src : Source} {rest : List Event} (hp : s.phase = .idle)
    (h : s.pending = .present src :: rest) : step s = .next ((s.setPending rest).presentSource src) := by
  simp [step, nextMove, idleMove, hp, h]

theorem step_idle_powerOn {n : Nat} {rest : List Event} (hp : s.phase = .idle)
    (h : s.pending = .powerOn n :: rest) : step s = .next (s.setPending rest).blockReset := by
  simp [step, nextMove, idleMove, hp, h]

theorem step_packing_powerOn_zero {rest : List Event} (hp : s.phase = .packing)
    (h : s.pending = .powerOn 0 :: rest) : step s = .next (s.setPending rest).blockReset := by
  simp [step, nextMove, packingMove, hp, h]

theorem step_packing_powerOn_succ {n : Nat} {rest : List Event} (hp : s.phase = .packing)
    (h : s.pending = .powerOn (n + 1) :: rest) : step s = engineStep (s.setPending (.powerOn n :: rest)) := by
  simp [step, nextMove, packingMove, hp, h]

theorem step_packing_engine (hp : s.phase = .packing) (h : NoResetDue s.pending) : step s = engineStep s := by
  unfold NoResetDue at h
  unfold step nextMove
  rw [hp]
  simp only [packingMove]
  split at h <;> simp_all

/-- Everything one step of the machine can do when it answers a next state. In an engine step `l` is what is pending
after it: what was, or a power-on reset that has come one engine step nearer. -/
theorem step_cases (h : step s = .next t) :
    (∃ n l, s.pending = .powerOn n :: l ∧ (s.phase = .idle ∨ n = 0) ∧ t = (s.setPending l).blockReset) ∨
    (s.phase = .idle ∧
      ((s.pending = [] ∧ t = s) ∨
       (∃ q l, s.pending = .request q :: l ∧ exec (decode q) (s.setPending l) = .next t) ∨
       (∃ src l, s.pending = .present src :: l ∧ t = (s.setPending l).presentSource src))) ∨
    (s.phase = .packing ∧ ∃ l, engineStep (s.setPending l) = .next t ∧
      ((NoResetDue s.pending ∧ l = s.pending) ∨
       (∃ n rest, s.pending = .powerOn (n + 1) :: rest ∧ l = .powerOn n :: rest))) := by
  cases hp : s.phase with
  | idle =>
    cases hq : s.pending with
    | nil => rw [step_idle_nil hp hq] at h; cases h; exact .inr (.inl ⟨rfl, .inl ⟨rfl, rfl⟩⟩)
    | cons e l =>
      cases e with
      | request q =>
        rw [step_idle_request hp hq] at h
        exact .inr (.inl ⟨rfl, .inr (.inl ⟨q, l, rfl, h⟩)⟩)
      | present src =>
        rw [step_idle_present hp hq] at h; cases h
        exact .inr (.inl ⟨rfl, .inr (.inr ⟨src, l, rfl, rfl⟩)⟩)
      | powerOn n => rw [step_idle_powerOn hp hq] at h; cases h; exact .inl ⟨n, l, rfl, .inl rfl, rfl⟩
  | packing =>
    by_cases hn : NoResetDue s.pending
    · rw [step_packing_engine hp hn] at h
      exact .inr (.inr ⟨rfl, s.pending, h, .inl ⟨hn, rfl⟩⟩)
    · cases hq : s.pending with
      | nil => simp [NoResetDue, hq] at hn
      | cons e l =>
        cases e with
        | request q => simp [NoResetDue, hq] at hn
        | present src => simp [NoResetDue, hq] at hn
        | powerOn n =>
          cases n with
          | zero => rw [step_packing_powerOn_zero hp hq] at h; cases h; exact .inl ⟨0, l, rfl, .inr rfl, rfl⟩
          | succ n =>
            rw [step_packing_powerOn_succ hp hq] at h
            exact .inr (.inr ⟨rfl, _, h, .inr ⟨n, l, rfl, rfl⟩⟩)

/-! ### Runs -/

@[simp] theorem core_run_zero (s : State) : Host.Core.run Sys2Proof.core 0 s = .next s := rfl

theorem core_run_succ (h : step s = .next t) (k : Nat) :
    Host.Core.run Sys2Proof.core (k + 1) s = Host.Core.run Sys2Proof.core k t := by
  have h' : Sys2Proof.core.step s = .next t := h
  simp [Host.Core.run, h']

/-- A run of `j + k` steps is a run of `j` steps and then one of `k`. -/
theorem core_run_add {j : Nat} (h : Host.Core.run Sys2Proof.core j s = .next t) (k : Nat) :
    Host.Core.run Sys2Proof.core (j + k) s = Host.Core.run Sys2Proof.core k t := by
  induction j generalizing s with
  | zero => cases h; rw [Nat.zero_add]
  | succ j ih =>
    cases hs : step s with
    | next u =>
      rw [core_run_succ hs] at h
      rw [Nat.succ_add, core_run_succ hs]
      exact ih h
    | fault r =>
      have : Host.Core.run Sys2Proof.core (j + 1) s = .fault r := by
        have hs' : Sys2Proof.core.step s = .fault r := hs
        simp [Host.Core.run, hs']
      rw [this] at h; cases h
    | refused r =>
      have : Host.Core.run Sys2Proof.core (j + 1) s = .refused r := by
        have hs' : Sys2Proof.core.step s = .refused r := hs
        simp [Host.Core.run, hs']
      rw [this] at h; cases h

end Sys2Proof.Laws
end

