-- ==== Sys2Proof/Tests/Slice0.lean ====
section
/-! SUPPORT. Tests. Expected values come from 95_test_vectors.md (named V, M, F, P) or from the bits that
30_encoding.md gives a request or a command word. Then, for each statement with hypotheses, one theorem that shows
a state and operands that meet them. -/
namespace Sys2Proof.Tests

open Sys2Proof.Machine Sys2Proof.Safety

/-! ### WellFormed: every check refuses an ill-formed term -/

theorem test_wf_refuses_a_legal_word_as_illegal :
    (Instr.illegal 1#32).wellFormed = false ∧ (Instr.illegal 2#32).wellFormed = false ∧
    (Instr.illegal 3#32).wellFormed = false ∧ (Instr.illegal 0#32).wellFormed = true := by decide

theorem test_wf_refuses_a_mapped_pair_as_err :
    (Instr.err .rd 1#32 0#32).wellFormed = false ∧ (Instr.err .rd 2#32 0#32).wellFormed = false ∧
    (Instr.err .wr 0#32 0#32).wellFormed = false ∧ (Instr.err .wr 2#32 0#32).wellFormed = false ∧
    (Instr.err .rd 0x80000000#32 0#32).wellFormed = false ∧ (Instr.err .wr 0xFFFFFFFF#32 0#32).wellFormed = false ∧
    (Instr.err .rd 3#32 0#32).wellFormed = true ∧ (Instr.err .wr 0x7FFFFFFF#32 9#32).wellFormed = true := by decide

theorem test_wf_refuses_data_on_a_read : (Instr.err .rd 0#32 5#32).wellFormed = false := by decide

/-! ### Decoding: one written-out word for each row, `{rw, addr, wdata}` or `{reserved, op}` -/

theorem test_decode_wr_cmd : decodeBits (.formatH (1#1 ++ 0x00000000#32 ++ 0x00000102#32)) = .wrCmd 0x102#32 := by
  decide
theorem test_decode_rd_status : decodeBits (.formatH (0#1 ++ 0x00000001#32 ++ 0x00000000#32)) = .rdStatus := by
  decide
theorem test_decode_rd_bpp : decodeBits (.formatH (0#1 ++ 0x00000002#32 ++ 0x00000000#32)) = .rdBpp := by decide
theorem test_decode_wr_bpp : decodeBits (.formatH (1#1 ++ 0x00000002#32 ++ 0x00000008#32)) = .wrBpp 8#32 := by
  decide
theorem test_decode_rd_bmp : decodeBits (.formatH (0#1 ++ 0x8000000B#32 ++ 0x00000000#32)) = .rdBmp 11#31 := by
  decide
theorem test_decode_wr_bmp :
    decodeBits (.formatH (1#1 ++ 0xFFFFFFFF#32 ++ 0x80000001#32)) = .wrBmp 0x7FFFFFFF#31 0x80000001#32 := by decide
theorem test_decode_err :
    decodeBits (.formatH (0#1 ++ 0x7FFFFFFF#32 ++ 0x00000000#32)) = .err .rd 0x7FFFFFFF#32 0#32 ∧
    decodeBits (.formatH (1#1 ++ 0x00000003#32 ++ 0x00000001#32)) = .err .wr 3#32 1#32 := by decide
theorem test_decode_clear : decodeBits (.formatC (0x000000#24 ++ 0x01#8)) = .clear := by decide
theorem test_decode_pack : decodeBits (.formatC (0x000000#24 ++ 0x02#8)) = .pack := by decide
theorem test_decode_reset : decodeBits (.formatC (0x000000#24 ++ 0x03#8)) = .reset := by decide
theorem test_decode_illegal :
    decodeBits (.formatC (0x000000#24 ++ 0x00#8)) = .illegal 0#32 ∧
    decodeBits (.formatC (0x800000#24 ++ 0x01#8)) = .illegal 0x80000001#32 ∧
    decodeBits (.formatC (0x000001#24 ++ 0x02#8)) = .illegal 0x102#32 := by decide

theorem test_table_words :
    decodeTableWord 72 0x100000002FFFFFFFF = some (.wrBpp 0xFFFFFFFF#32) ∧
    decodeTableWord 72 0x08000003F00000000 = some (.rdBmp 63#31) ∧
    decodeTableWord 32 0x00000002 = some .pack ∧
    decodeTableWord 32 0x00000102 = some (.illegal 0x102#32) := by decide

theorem test_table_words_too_wide :
    readTableWord 32 0x100000000 = .error .commandTooWide ∧ decodeTableWord 32 0x100000000 = none ∧
    readTableWord 72 0x20000000000000000 = .error .requestTooWide ∧
    decodeTableWord 72 0x20000000000000000 = none := ⟨rfl, rfl, rfl, rfl⟩

/-! ### States -/

/-- An 8-pixel, 1-row image of bytes 0xA0 + i (the source of V7b). -/
def row8 : Source where
  available := true
  indexed := true
  w := 8#16
  h := 1#16
  bytes := [0xA0#8, 0xA1#8, 0xA2#8, 0xA3#8, 0xA4#8, 0xA5#8, 0xA6#8, 0xA7#8]

/-- One 8x8 tile, every byte 0x05 (S1 of V13). -/
def tile8 : Source where
  available := true
  indexed := true
  w := 8#16
  h := 8#16
  bytes := List.replicate 64 0x05#8

/-- A block after reset with `CAP_PIXELS` = `BUF_WORDS` = 64 (V17c), a depth, a source and what will happen. -/
def block (bpp : Word) (src : Source) (pending : List Event) : State :=
  { State.reset with params := ⟨64, 64⟩, bpp := bpp, src := src, pending := pending }

/-- The block in the middle of a PACK, at pixel `idx`. -/
def packing (bpp : BitVec 6) (src : Source) (idx : BitVec 32) (pending : List Event) : State :=
  { block (bpp.setWidth 32) src pending with
    phase := .packing
    idx := idx
    nLat := BitVec.ofNat 32 (src.pixelCount 64)
    wLat := src.w
    bppLat := bpp }

/-- A state with every host-visible part in use: OOR set, RESULT 5, two words, a depth. -/
def used : State :=
  { block 4#32 row8 [] with bmp := [(0, 0xDEADBEEF#32), (63, 1#32)], result := 5#4, oor := true }

/-- The next state, if there is one. -/
def nextState (o : Host.Outcome State Fault Refusal) : Option State :=
  match o with
  | .next s => some s
  | .fault _ => none
  | .refused _ => none

/-- What a host sees of an instruction's answer: STATUS, BPP and the responses. -/
def visible (o : Host.Outcome State Fault Refusal) : Option (Word × Word × List Response) :=
  (nextState o).map fun s => (s.status, s.bpp, s.responses)

/-- The transaction that carries a command word. -/
def command (c : Word) : Event := .request ⟨.wr, 0#32, c⟩

/-! ### One step of each instruction -/

-- V17b: 0x102 is illegal, nothing is packed or cleared. V15: CLEAR leaves OOR.
theorem test_wr_cmd_illegal : (nextState (exec (.wrCmd 0x102#32) used)).map (·.bmp) = some used.bmp ∧
    visible (exec (.wrCmd 0x102#32) used) = some (0x14#32, 4#32, [.done]) := by decide
theorem test_wr_cmd_clear : visible (exec (.wrCmd 1#32) used) = some (0x10#32, 4#32, [.done]) := by decide
-- V15: STATUS is 0x15 after a suppressed write.
theorem test_rd_status : visible (exec .rdStatus used) = some (0x15#32, 4#32, [.data 0x15#32]) := by decide
-- V17c.
theorem test_rd_bpp : visible (exec .rdBpp (block 0xFFFFFFFF#32 row8 [])) =
    some (0#32, 0xFFFFFFFF#32, [.data 0xFFFFFFFF#32]) := by decide
theorem test_wr_bpp : visible (exec (.wrBpp 3#32) used) = some (0x15#32, 3#32, [.done]) := by decide
theorem test_rd_bmp_last : visible (exec (.rdBmp 63#31) used) = some (0x15#32, 4#32, [.data 1#32]) := by decide
theorem test_rd_bmp_beyond : visible (exec (.rdBmp 64#31) used) = some (0x15#32, 4#32, [.err]) := by decide
theorem test_wr_bmp_last : (nextState (exec (.wrBmp 63#31 0xFFFF0000#32) used)).map (·.bmp) =
    some [(0, 0xDEADBEEF#32), (63, 0xFFFF0000#32)] := by decide
theorem test_wr_bmp_beyond : (nextState (exec (.wrBmp 64#31 1#32) used)).map (·.bmp) = some used.bmp ∧
    visible (exec (.wrBmp 64#31 1#32) used) = some (0x15#32, 4#32, [.err]) := by decide
theorem test_err : visible (exec (.err .wr 1#32 5#32) used) = some (0x15#32, 4#32, [.err]) := by decide
-- V17a with V15: BPP and OOR stay.
theorem test_clear : (nextState (exec .clear used)).map (·.bmp) = some [] ∧
    visible (exec .clear used) = some (0x10#32, 4#32, [.done]) := by decide
-- V14 X7: the first check wins.
theorem test_pack_first_check : visible (exec .pack (block 0#32 Source.absent [])) =
    some (0x2#32, 0#32, [.done]) := by decide
-- P1 step 3, for its 16x8 source.
theorem test_pack_latches :
    (nextState (exec .pack { block 4#32 { row8 with w := 16#16, h := 8#16 } [] with params := ⟨32768, 32768⟩ })).map
      (fun s => (s.nLat, s.wLat, s.bppLat, s.oorLat, s.phase)) =
    some (128#32, 16#16, 4#6, false, .packing) := by decide
-- V18.
theorem test_reset : nextState (exec .reset used) =
    some { block 0#32 row8 [] with responses := [.done] } := by decide
-- V17b: 0x14 with OOR set.
theorem test_illegal : visible (exec (.illegal 0#32) used) = some (0x14#32, 4#32, [.done]) := by decide

/-! ### The mapper, the packer and the engine -/

-- M8, M12, M15, M22, M28, M30.
theorem test_mapper : [(57, 16), (255, 16), (96, 12), (511, 512), (32096, 1000), (524280, 65535)].map
    (fun (i, w) => tileAddr i w) = [89, 255, 68, 4039, 32768, 524231] := by decide
-- F1, F3, F15, F28, F32, F36.
theorem test_packer :
    [packField 89 1 0xB7, packField 89 4 0xB7, packField 31 4 0x01, packField 63 8 0x80, packField 32767 2 0xFF,
      packField 32767 32 0xFF] =
    [⟨2, 25, 0x02000000⟩, ⟨11, 4, 0x00000070⟩, ⟨3, 28, 0x10000000⟩, ⟨15, 24, 0x80000000⟩, ⟨2047, 30, 0xC0000000⟩,
      ⟨32767, 0, 0xFF⟩] := by decide
-- V1: pixel 57 of the 16x8 image is ORed into word 11.
theorem test_pixel_step :
    (nextState (engineStep (packing 4#6
      { row8 with w := 16#16, h := 8#16, bytes := List.replicate 57 0#8 ++ [7#8] } 57#32 []))).map
      (fun s => (s.bmp, s.idx, s.oorLat)) = some ([(11, 0x70#32)], 58#32, false) := by decide
-- V15: pixel 8 of the 16-wide image at depth 32 has position 64 and is suppressed.
theorem test_pixel_step_suppressed :
    (nextState (engineStep (packing 32#6
      { row8 with w := 16#16, h := 8#16, bytes := row8.bytes ++ [9#8] } 8#32 []))).map
      (fun s => (s.bmp, s.idx, s.oorLat)) = some ([], 9#32, true) := by decide
-- 41_pack.md rule R97.
theorem test_completion :
    (nextState (engineStep { packing 8#6 row8 8#32 [] with oorLat := true })).map
      (fun s => (s.status, s.phase, s.idx, s.nLat, s.oorLat)) = some (0x15#32, .idle, 0#32, 8#32, true) := by decide
-- 40_host_access.md rule R79: a provider that does not deliver an owed byte is outside the spec.
theorem test_missing_byte : engineStep (packing 8#6 { row8 with bytes := [] } 0#32 []) =
    .refused .sourceByteMissing := rfl
theorem test_reset_memory_wf : State.reset.bmp.wf := by decide
theorem test_step_after_reset : (nextState (step (State.reset.withFetchWord 32 0x00000000))).map (·.status) =
    some 4#32 := by decide

/-! ### Witnesses: hypotheses that can be met

Each theorem is named after the statement whose hypotheses it meets; the comment says which clause. -/

-- Clauses 4 and 5.
theorem witness_RdStatusReturnsTheStatusWord :
    ((block 3#32 row8 []).packCheck = some .invalidDepth ∧ (block 3#32 row8 []).oor = false) ∧
    (used.oor = true ∧ used.result = 5#4) := by decide
-- Clause 3, at depths next to legal ones.
theorem witness_WrBppStoresAnyDepthUnchecked :
    used.src.available = true ∧ used.src.indexed = true ∧ (0#32).toNat ∉ [1, 2, 4, 8, 16, 32] ∧
    (3#32).toNat ∉ [1, 2, 4, 8, 16, 32] ∧ (33#32).toNat ∉ [1, 2, 4, 8, 16, 32] := by decide
-- Clause 2 at the last word, clause 3 right behind it.
theorem witness_WrBmpReplacesOneWholeWord :
    used.bmp.wf ∧ (63#31).toNat < used.params.bufWords ∧ used.params.bufWords ≤ (64#31).toNat := by decide
-- Each way to an ERR, at the ends of the ranges, and the neighbours that get none.
theorem witness_OnlyRequestsOutsideTheMapGetErr :
    [(⟨.rd, 0#32, 0#32⟩ : Request), ⟨.wr, 1#32, 0#32⟩, ⟨.rd, 3#32, 0#32⟩, ⟨.wr, 0x7FFFFFFF#32, 0#32⟩,
      ⟨.rd, 0x80000040#32, 0#32⟩, ⟨.wr, 0#32, 0#32⟩, ⟨.rd, 1#32, 0#32⟩, ⟨.rd, 2#32, 0#32⟩,
      ⟨.wr, 0x8000003F#32, 0#32⟩].map
      (fun q => ((nextState (exec (decode q) used)).map (fun s => decide (s.responses = [.err])))) =
    [some true, some true, some true, some true, some true, some false, some false, some false, some false] := by
  decide
-- Clause 5, next to the legal words and with a reserved bit set.
theorem witness_WrCmdDoesTheCommandItCarries :
    ∀ c ∈ [0#32, 4#32, 0x102#32], c ≠ 0x00000001#32 ∧ c ≠ 0x00000002#32 ∧ c ≠ 0x00000003#32 := by simp
theorem witness_ReadsChangeNothingAndRepeat :
    (Instr.rdBmp 63#31 = .rdStatus ∨ Instr.rdBmp 63#31 = .rdBpp ∨ ∃ k, Instr.rdBmp 63#31 = .rdBmp k) :=
  .inr (.inr ⟨_, rfl⟩)
theorem witness_OnlyCommandsWriteStatus :
    ¬((⟨.rd, 0#32, 0#32⟩ : Request).rw = .wr ∧ (⟨.rd, 0#32, 0#32⟩ : Request).addr = 0x00000000#32) ∧
    ¬((⟨.wr, 1#32, 0#32⟩ : Request).rw = .wr ∧ (⟨.wr, 1#32, 0#32⟩ : Request).addr = 0x00000000#32) := by decide
-- Clause 3's source, and clause 4: RESET does clear OOR.
theorem witness_ResetRestoresTheResetState :
    (used.src.available = true ∧ used.src.indexed = true) ∧
    (∃ t, exec (.wrCmd 0x00000003#32) used = .next t ∧ used.oor = true ∧ t.oor = false) :=
  ⟨by decide, _, rfl, rfl, rfl⟩
theorem witness_IllegalCommandWordsOnlySetTheCode :
    ∀ c ∈ [0#32, 4#32, 0xFFFFFFFF#32], c ≠ 0x00000001#32 ∧ c ≠ 0x00000002#32 ∧ c ≠ 0x00000003#32 := by simp
-- One state for each check.
theorem witness_PackFailsWithItsFirstFailingCheck :
    (block 0#32 Source.absent []).src.available = false ∧
    ((block 0#32 { row8 with indexed := false } []).src.available = true ∧
      (block 0#32 { row8 with indexed := false } []).src.indexed = false) ∧
    ((block 31#32 row8 []).src.available = true ∧ (block 31#32 row8 []).src.indexed = true ∧
      (block 31#32 row8 []).bpp.toNat ∉ [1, 2, 4, 8, 16, 32]) := by decide
-- The smallest and the largest depth.
theorem witness_PackAcceptanceLatchesItsOperands :
    ((block 1#32 row8 []).src.available = true ∧ (block 1#32 row8 []).src.indexed = true ∧
      (block 1#32 row8 []).bpp.toNat ∈ [1, 2, 4, 8, 16, 32]) ∧
    (block 32#32 row8 []).bpp.toNat ∈ [1, 2, 4, 8, 16, 32] := by decide
-- The last pixel of the row: word 7 is below BUF_WORDS.
theorem witness_PixelStepOrsOneFieldIntoItsWord :
    (packing 32#6 row8 7#32 []).bmp.wf ∧ (packing 32#6 row8 7#32 []).idx < (packing 32#6 row8 7#32 []).nLat ∧
    (packing 32#6 row8 7#32 []).wLat.toNat ≠ 0 ∧
    (packing 32#6 row8 7#32 []).bppLat.toNat ∈ [1, 2, 4, 8, 16, 32] ∧
    (packing 32#6 row8 7#32 []).src.bytes[(packing 32#6 row8 7#32 []).idx.toNat]? = some 0xA7#8 ∧
    7 = 7 % 8 ∧ 0 = 7 / 8 ∧ 7 = 7 + 0 / 8 * 8 ∧ 0 = 0 % 8 ∧ 7 = 7 % 8 + 0 * 8 + 7 / 8 * 64 ∧ 1 = 32 / 32 ∧
    7 = 7 / 1 ∧ 0 = 7 % 1 * 32 ∧ 0xA7 = ((0xA7#8).toNat &&& (2 ^ 32 - 1)) <<< 0 := by decide
-- The other branch: with BUF_WORDS = 7 the same pixel's word 7 is the first that does not exist.
theorem witness_PixelStepSuppressed :
    (nextState (engineStep { packing 32#6 row8 7#32 [] with params := ⟨64, 7⟩ })).map
      (fun s => (s.bmp, s.oorLat)) = some ([], true) := by decide
theorem witness_CompletionReportsAndIdles : (packing 8#6 row8 8#32 []).idx = (packing 8#6 row8 8#32 []).nLat := by
  decide
theorem witness_PackNeverClearsABit :
    (∃ t, exec .pack (block 4#32 row8 []) = .next t) ∧
    (packing 8#6 row8 0#32 []).bmp.wf ∧ (∃ t, engineStep (packing 8#6 row8 0#32 []) = .next t) ∧
    (∃ f, engineStep (packing 0#6 row8 0#32 []) = .fault f) ∧
    ∃ r, engineStep (packing 8#6 { row8 with bytes := [] } 0#32 []) = .refused r :=
  ⟨⟨_, rfl⟩, by decide, ⟨_, rfl⟩, ⟨_, rfl⟩, _, rfl⟩

/-- The block about to PACK the row. -/
def ready : State := block 8#32 row8 [command 2#32]

-- PackReachesTheOneTransitionState, FieldsNoPixelTargetsAreKept (position 8 is no pixel's), PixelOrderDoesNotMatter.
theorem witness_PackReady : PackReady ready [] := by decide
theorem witness_FieldsNoPixelTargetsAreKept :
    PackReady ready [] ∧ ∀ i, i < ready.pixelCount → tileAddr i ready.src.w.toNat ≠ 8 := by decide
theorem witness_PixelOrderDoesNotMatter :
    PackReady ready [] ∧ ([7, 6, 5, 4, 3, 2, 1, 0] : List Nat).Perm (List.range ready.pixelCount) := by decide
-- The last pixel, into the last word of a two-word buffer; and a clear buffer.
theorem witness_PackedPixelsReadBackMasked :
    PackReady { ready with params := ⟨64, 2⟩ } [] ∧ 7 < State.pixelCount { ready with params := ⟨64, 2⟩ } ∧
    ready.src.bytes[7]? = some 0xA7#8 ∧ tileAddr 7 ready.src.w.toNat / (32 / ready.bpp.toNat) < 2 :=
  ⟨by decide, by decide, by decide, by decide⟩
theorem witness_PackedPixelsReadBackMasked_clear (k : Nat) : ready.bmp.read k = 0#32 := rfl
/-- The host writes depth 1. -/
def depth1 : Event := .request ⟨.wr, 2#32, 1#32⟩
-- V19's way: another source and another depth between the two PACKs; every hypothesis together.
theorem witness_TwoPacksOrIntoStaleData :
    ∃ between, between = [.present tile8, .request ⟨.wr, 2#32, 1#32⟩] ∧
      PackReady (block 8#32 row8 [command 2#32, .present tile8, depth1, command 2#32])
        (between ++ .request ⟨.wr, 0#32, 2#32⟩ :: []) ∧
      tile8.available = true ∧ tile8.indexed = true ∧ (1#32).toNat ∈ [1, 2, 4, 8, 16, 32] ∧
      Supplied tile8 64 ∧ NoResetDue [] :=
  ⟨_, rfl, ⟨by decide, rfl, by decide, by decide, rfl, trivial⟩, rfl, rfl, by decide, by decide, trivial⟩
-- The other four forms of what stands between; their second source and depth are among those above and row8, 8.
theorem witness_TwoPacksOrIntoStaleData_row8 :
    row8.available = true ∧ row8.indexed = true ∧ (8#32).toNat ∈ [1, 2, 4, 8, 16, 32] ∧ Supplied row8 64 := by decide
theorem witness_TwoPacksOrIntoStaleData_nothing :
    PackReady (block 8#32 row8 [command 2#32, command 2#32]) ([] ++ .request ⟨.wr, 0#32, 2#32⟩ :: []) :=
  ⟨by decide, rfl, by decide, by decide, rfl, trivial⟩
theorem witness_TwoPacksOrIntoStaleData_source :
    PackReady (block 8#32 row8 [command 2#32, .present tile8, command 2#32]) ([.present tile8] ++ .request ⟨.wr, 0#32, 2#32⟩ :: []) :=
  ⟨by decide, rfl, by decide, by decide, rfl, trivial⟩
theorem witness_TwoPacksOrIntoStaleData_depth :
    PackReady (block 8#32 row8 [command 2#32, depth1, command 2#32]) ([.request ⟨.wr, 2#32, 1#32⟩] ++ .request ⟨.wr, 0#32, 2#32⟩ :: []) :=
  ⟨by decide, rfl, by decide, by decide, rfl, trivial⟩
theorem witness_TwoPacksOrIntoStaleData_depth_then_source :
    PackReady (block 8#32 row8 [command 2#32, depth1, .present tile8, command 2#32]) ([.request ⟨.wr, 2#32, 1#32⟩, .present tile8] ++ .request ⟨.wr, 0#32, 2#32⟩ :: []) :=
  ⟨by decide, rfl, by decide, by decide, rfl, trivial⟩
theorem witness_RepackingTheSameSourceChangesNoWord :
    PackReady (block 8#32 row8 [command 2#32, command 2#32]) [command 2#32] ∧ NoResetDue [] :=
  ⟨⟨by decide, rfl, by decide, by decide, rfl, trivial⟩, trivial⟩
-- Clause 1 at both ends of the depths; clause 2 with the capacity and the buffer exactly full.
theorem witness_WholeTileImagesThatFitSuppressNothing :
    ((1 : Nat) ∈ [1, 2, 4, 8, 16, 32] ∧ (32 : Nat) ∈ [1, 2, 4, 8, 16, 32]) ∧
    PackReady (block 32#32 tile8 [command 2#32]) [] ∧ 8 ∣ tile8.w.toNat ∧ 8 ∣ tile8.h.toNat ∧
    tile8.w.toNat * tile8.h.toNat ≤ 64 ∧ tile8.w.toNat * tile8.h.toNat ≤ 64 * (32 / 32) := by decide
theorem witness_EmptyImagesPackNothing :
    PackReady (block 4#32 { row8 with w := 0#16, bytes := [] } [command 2#32]) [] ∧
    PackReady (block 4#32 { row8 with h := 0#16, bytes := [] } [command 2#32]) [] := by decide
-- Clause 1 with more bytes than the source has; clause 2.
theorem witness_UnreadSourceBytesDoNotMatter :
    (∀ i, i < (packing 8#6 row8 7#32 []).nLat.toNat → (row8.bytes ++ [1#8])[i]? = row8.bytes[i]?) ∧
    (∃ t, engineStep (packing 8#6 row8 7#32 []) = .next t) ∧
    LatchesCurrent (packing 8#6 row8 7#32 []) ∧ (packing 8#6 row8 7#32 []).phase = .packing :=
  ⟨by decide, ⟨_, rfl⟩, by decide, rfl⟩

-- The mapper: pixel 107 of a 12-wide image (M17), and W = 1.
theorem witness_TileAddrIsStripRemapThenTilePosition :
    1 ≤ 12 ∧ 11 = 107 % 12 ∧ 8 = 107 / 12 ∧ 23 = 11 + 8 / 8 * 12 ∧ 0 = 8 % 8 := by decide
theorem witness_PositionReadsBackAsTileRowColumn : 1 ≤ 1 ∧ 8 ∣ 16 := by decide
theorem witness_TileAddrIsInjectiveWithItsInverse : 1 ≤ 1 ∧ tileAddr 9 1 = tileAddr 9 1 := by decide
-- Strip 1 of a 16-wide image, its first and its last index; row and column 7; H = 16.
theorem witness_StripsMapOntoTheirOwnPositions :
    1 ≤ 16 ∧ 8 ∣ 16 ∧ 7 < 8 ∧ (8 * 1 * 16 ≤ 128 ∧ 128 < 8 * (1 + 1) * 16) ∧
    (8 * 1 * 16 ≤ 255 ∧ 255 < 8 * (1 + 1) * 16) ∧ 8 ∣ 16 ∧ 255 < 16 * 16 := by decide
theorem witness_PositionsStayBelowTheBound : 1 ≤ 65535 ∧ 524280 < 524281 := by decide
theorem witness_FieldsFitTheirWord : (1 : Nat) ∈ [1, 2, 4, 8, 16, 32] ∧ (32 : Nat) ∈ [1, 2, 4, 8, 16, 32] := by
  decide
theorem witness_FieldsOfDifferentPositionsAreDisjoint :
    (16 : Nat) ∈ [1, 2, 4, 8, 16, 32] ∧ 30 ≠ 31 ∧ wordIndex 30 16 = wordIndex 31 16 := by decide
theorem witness_TilesAreTwoDepthWords : (32 : Nat) ∈ [1, 2, 4, 8, 16, 32] ∧ 7 < 8 := by decide

theorem witness_DecodeInvertsEncode :
    (Instr.err .wr 0x7FFFFFFF#32 0xFFFFFFFF#32).wellFormed = true ∧ (Instr.illegal 0xFFFFFFFF#32).wellFormed = true ∧
    (Instr.wrBmp 0x7FFFFFFF#31 0xFFFFFFFF#32).wellFormed = true := by decide
theorem witness_EncodeInvertsDecode :
    (⟨.wr, 3#32, 1#32⟩ : Request).rw = .wr ∧ (⟨.rd, 3#32, 1#32⟩ : Request).rw = .rd := by decide
theorem witness_MatchAndMaskAgreeWithTheDecoder :
    ∃ r ∈ rowsH, r.takes 0x08000003F00000000#65 = true :=
  ⟨⟨"RD.BMP", 0x08000000000000000#65, 0x18000000000000000#65⟩, by decide, by decide⟩

-- Both clauses.
theorem witness_StepRunsTheDecodedInstruction :
    ready.phase = .idle ∧ ready.pending = .request ⟨.wr, 0#32, 2#32⟩ :: [] ∧
    decodeTableWord 32 0x00000002 = some .pack := by decide
-- At the first pixel, and with no pixel left.
theorem witness_HeldTransactionWaitsAndThenRuns :
    (Invariant (packing 8#6 row8 0#32 [command 1#32]) ∧ LatchesCurrent (packing 8#6 row8 0#32 [command 1#32]) ∧
      Supplied (packing 8#6 row8 0#32 [command 1#32]).src 64 ∧
      (packing 8#6 row8 0#32 [command 1#32]).phase = .packing ∧
      (packing 8#6 row8 0#32 [command 1#32]).pending = .request ⟨.wr, 0#32, 1#32⟩ :: []) ∧
    Invariant (packing 8#6 row8 8#32 [command 1#32]) ∧ LatchesCurrent (packing 8#6 row8 8#32 [command 1#32]) :=
  ⟨⟨by decide, by decide, by decide, rfl, rfl⟩, by decide, by decide⟩
-- One state for each clause.
theorem witness_PowerOnResetAtAnyTime :
    ((block 8#32 row8 [.powerOn 3]).phase = .idle ∧ (block 8#32 row8 [.powerOn 3]).pending = .powerOn 3 :: []) ∧
    ((packing 8#6 row8 5#32 [.powerOn 0]).phase = .packing ∧
      (packing 8#6 row8 5#32 [.powerOn 0]).pending = .powerOn 0 :: []) ∧
    ((packing 8#6 row8 5#32 [.powerOn 1]).phase = .packing ∧
      (packing 8#6 row8 5#32 [.powerOn 1]).pending = .powerOn (0 + 1) :: []) := by decide
-- The least and the largest parameters.
theorem witness_EveryRunStartsInTheInvariant :
    (⟨1, 1⟩ : Config.Params).legal ∧ (⟨2 ^ 31, 2 ^ 31⟩ : Config.Params).legal := by decide
theorem witness_EveryStepKeepsTheInvariant :
    Invariant ready ∧ (∃ t, step ready = .next t) ∧
    Invariant (packing 8#6 row8 8#32 []) ∧ ∃ t, step (packing 8#6 row8 8#32 []) = .next t :=
  ⟨by decide, ⟨_, rfl⟩, by decide, _, rfl⟩
theorem witness_StatusReadsOnlyDefinedCodes : Invariant used := by decide
theorem witness_LatchesStayCurrent :
    LatchesCurrent (packing 8#6 row8 0#32 []) ∧ ∃ t, step (packing 8#6 row8 0#32 []) = .next t :=
  ⟨by decide, _, rfl⟩
theorem witness_DutifulRunsNeverStop :
    Invariant (packing 8#6 row8 0#32 [.present tile8]) ∧ LatchesCurrent (packing 8#6 row8 0#32 [.present tile8]) ∧
    Dutiful (packing 8#6 row8 0#32 [.present tile8]) := by
  refine ⟨by decide, by decide, by decide, fun e he => ?_⟩
  rw [List.mem_singleton.mp he]
  show Supplied tile8 64
  decide
-- Also where the provider breaks its duty.
theorem witness_TheInvariantRulesOutEveryFault :
    Invariant (packing 8#6 { row8 with bytes := [] } 0#32 []) := by decide
-- OOR kept by CLEAR, cleared by RESET and by each power-on reset that is due, set by a completion.
theorem witness_OorIsStickyUntilReset :
    ((∃ t, step { used with pending := [command 1#32] } = .next t) ∧ used.oor = true) ∧
    (∃ t, step { used with pending := [command 3#32] } = .next t ∧ t.oor = false) ∧
    (∃ t, step { used with pending := [.powerOn 3] } = .next t ∧ t.oor = false) ∧
    (∃ t, step { packing 8#6 row8 5#32 [.powerOn 0] with oor := true } = .next t ∧ t.oor = false) ∧
    (∃ t, step { packing 8#6 row8 8#32 [] with oorLat := true } = .next t ∧ t.oor = true ∧
      (packing 8#6 row8 8#32 []).oor = false) :=
  ⟨⟨⟨_, rfl⟩, rfl⟩, ⟨_, rfl, rfl⟩, ⟨_, rfl, rfl⟩, ⟨_, rfl, rfl⟩, _, rfl, rfl, rfl⟩
-- A power-on reset one engine step away resets nothing: OOR is kept, and a completion sets it.
theorem witness_OorIsStickyUntilReset_not_due :
    (∃ t, step { packing 8#6 row8 5#32 [.powerOn 1] with oor := true } = .next t ∧ t.oor = true) ∧
    (∃ t, step { packing 8#6 row8 8#32 [.powerOn 1] with oorLat := true } = .next t ∧ t.oor = true) ∧
    (∀ rest, (packing 8#6 row8 8#32 [.powerOn 1]).pending ≠ .powerOn 0 :: rest) :=
  ⟨⟨_, rfl, rfl⟩, ⟨_, rfl, rfl⟩, fun rest h => by simp [packing, block] at h⟩
-- WR.BPP, a power-on reset that is due, and one that is not.
theorem witness_DepthChangesOnlyByWriteOrReset :
    (∃ t, step (block 8#32 row8 [.request ⟨.wr, 2#32, 4#32⟩]) = .next t ∧ t.bpp = 4#32) ∧
    (∃ t, step (packing 8#6 row8 5#32 [.powerOn 0]) = .next t ∧ t.bpp = 0#32) ∧
    (∃ t, step (packing 8#6 row8 5#32 [.powerOn 1]) = .next t ∧ t.bpp = 8#32) :=
  ⟨⟨_, rfl, rfl⟩, ⟨_, rfl, rfl⟩, _, rfl, rfl⟩
theorem witness_ParametersAndSourceAreNotTheBlocks :
    ∃ t, step (block 8#32 row8 [.present tile8]) = .next t ∧ t.src = tile8 := ⟨_, rfl, rfl⟩
theorem witness_EveryDutifulRunEnds :
    (⟨64, 64⟩ : Config.Params).legal ∧
    ∀ e ∈ [Event.present row8, command 2#32, Event.powerOn 1], EventSupplied 64 e := by
  refine ⟨by decide, fun e he => ?_⟩
  simp only [List.mem_cons, List.not_mem_nil, or_false] at he
  rcases he with rfl | rfl | rfl
  · show Supplied row8 64
    decide
  · trivial
  · trivial
-- Two states whose latches differ.
theorem witness_HiddenRegistersAreUnobservable :
    SameVisible { ready with wLat := 5#16, oorLat := true } ready ∧
    ∃ t, step { ready with wLat := 5#16, oorLat := true } = .next t := ⟨.inr (by decide), _, rfl⟩

end Sys2Proof.Tests
end

/-! PROOFS. 10_state.md: who writes OOR (rule R15), and the reset state (rule R22). -/
namespace Sys2Proof.Proofs

open Sys2Proof.Machine Sys2Proof.Laws

section

variable {s t : State}

/-! ### The request that carries RESET -/

/-- 3 is the only command word that means RESET (30_encoding.md rules R54 and R56). -/
theorem decodeCommand_eq_reset_iff (c : Word) : decodeCommand c = .reset ↔ c = 0x00000003#32 := by
  refine ⟨fun h => ?_, fun h => h ▸ by decide⟩
  cases hu : unassignedCommand c with
  | true => rw [decodeCommand_unassigned hu] at h; cases h
  | false =>
    simp only [unassignedCommand, Bool.and_eq_false_iff, bne_eq_false_iff_eq] at hu
    obtain (rfl | rfl) | rfl := hu
    · exact absurd h (by decide)
    · exact absurd h (by decide)
    · rfl

/-- A WR to CMD is the only request that decodes to WR.CMD (30_encoding.md rule R56). -/
theorem decode_eq_wrCmd_iff (q : Request) (c : Word) : decode q = .wrCmd c ↔ q = ⟨.wr, 0x00000000#32, c⟩ := by
  obtain ⟨dir, a, v⟩ := q
  cases dir with
  | rd => simp only [decode]; split_ifs <;> simp
  | wr => simp only [decode, cmdAddr]; split_ifs <;> simp_all

/-- No request is of format C: a command reaches the block inside a WR.CMD only. -/
theorem decode_ne_command (q : Request) (c : Command) : decode q ≠ c.toInstr := by
  obtain ⟨dir, a, v⟩ := q
  cases c <;> cases dir with
  | rd => simp only [decode, Command.toInstr]; split_ifs <;> simp
  | wr => simp only [decode, Command.toInstr]; split_ifs <;> simp

/-! ### OOR through an executed transaction -/

/-- CLEAR, PACK and ILLEGAL leave OOR alone (10_state.md rule R15). -/
theorem exec_command_keeps_oor {c : Command} (hc : c ≠ .reset) (h : exec c.toInstr s = .next t) :
    t.oor = s.oor := by
  cases c with
  | clear => cases h; rfl
  | pack =>
    cases hk : s.packCheck with
    | none => cases (exec_pack_accepts hk).symm.trans h; rfl
    | some code => cases (exec_pack_raises hk).symm.trans h; rfl
  | reset => exact absurd rfl hc
  | illegal c => cases h; rfl

/-- A transaction leaves OOR alone unless it is the WR to CMD that carries RESET. -/
theorem exec_decode_keeps_oor {q : Request} (hq : q ≠ ⟨.wr, 0x00000000#32, 0x00000003#32⟩)
    (h : exec (decode q) s = .next t) : t.oor = s.oor := by
  cases hi : decode q with
  | wrCmd c =>
    rw [hi, exec_wrCmd] at h
    refine exec_command_keeps_oor (fun hc => hq ?_) h
    rw [(decode_eq_wrCmd_iff q c).mp hi, (decodeCommand_eq_reset_iff c).mp hc]
  | rdStatus => rw [hi, exec_rdStatus] at h; cases h; rfl
  | rdBpp => rw [hi, exec_rdBpp] at h; cases h; rfl
  | wrBpp v => rw [hi, exec_wrBpp] at h; cases h; rfl
  | rdBmp k => rw [hi, exec_rdBmp] at h; cases h; rfl
  | wrBmp k v =>
    rw [hi, exec_wrBmp] at h
    cases h
    split_ifs <;> rfl
  | err dir a v => rw [hi, exec_err] at h; cases h; rfl
  | clear => exact absurd hi (decode_ne_command q .clear)
  | pack => exact absurd hi (decode_ne_command q .pack)
  | reset => exact absurd hi (decode_ne_command q .reset)
  | illegal c => exact absurd hi (decode_ne_command q (.illegal c))

/-- The WR to CMD that carries RESET leaves OOR 0 (42_clear_reset.md rule R111). -/
theorem exec_reset_request_clears_oor
    (h : exec (decode ⟨.wr, 0x00000000#32, 0x00000003#32⟩) s = .next t) : t.oor = false := by
  rw [(decode_eq_wrCmd_iff _ _).mpr rfl, exec_wrCmd, (decodeCommand_eq_reset_iff _).mpr rfl] at h
  cases h
  rfl

/-! ### OOR through a step of the machine -/

/-- Power-on reset happens in the next step (70_reset_and_hazards.md rule R142). -/
abbrev PowerOnHappens (s : State) : Prop :=
  ∃ n rest, s.pending = .powerOn n :: rest ∧ (s.phase = .idle ∨ n = 0)

/-- The next step accepts the WR to CMD that carries RESET (42_clear_reset.md rule R111). -/
abbrev ResetAccepted (s : State) : Prop :=
  s.phase = .idle ∧ ∃ rest, s.pending = .request ⟨.wr, 0x00000000#32, 0x00000003#32⟩ :: rest

/-- The running PACK has no pixel left (41_pack.md rules R96 and R97). -/
abbrev PackAtEnd (s : State) : Prop := s.phase = .packing ∧ s.idx = s.nLat

/-- Everything a step can do to OOR: a reset clears it, the end of a PACK marks it, and otherwise it stays. -/
theorem step_oor_cases (h : step s = .next t) :
    ((PowerOnHappens s ∨ ResetAccepted s) ∧ t.oor = false) ∨
    (PackAtEnd s ∧ t.oor = stickyOor s.oor s.oorLat) ∨
    (¬ PackAtEnd s ∧ t.oor = s.oor) := by
  have idle_not_end (hp : s.phase = .idle) : ¬ PackAtEnd s := by simp [PackAtEnd, hp]
  obtain ⟨n, l, hpend, hdue, rfl⟩ | ⟨hp, hidle⟩ | ⟨hp, l, he, -⟩ := step_cases h
  · exact .inl ⟨.inl ⟨n, l, hpend, hdue⟩, rfl⟩
  · obtain ⟨-, rfl⟩ | ⟨q, l, hpend, hx⟩ | ⟨src, l, -, rfl⟩ := hidle
    · exact .inr (.inr ⟨idle_not_end hp, rfl⟩)
    · by_cases hq : q = ⟨.wr, 0x00000000#32, 0x00000003#32⟩
      · subst hq
        exact .inl ⟨.inr ⟨hp, l, hpend⟩, exec_reset_request_clears_oor hx⟩
      · exact .inr (.inr ⟨idle_not_end hp, exec_decode_keeps_oor (s := s.setPending l) hq hx⟩)
    · exact .inr (.inr ⟨idle_not_end hp, rfl⟩)
  · obtain ⟨hlt, -, v, -, rfl⟩ | ⟨heq, rfl⟩ := engineStep_cases he
    · exact .inr (.inr ⟨fun hend => BitVec.ne_of_lt hlt hend.2, by simp⟩)
    · exact .inr (.inl ⟨⟨hp, heq⟩, rfl⟩)

end

/-! ### The obligations -/

/-- Settles O51, by what a step can do to OOR: a reset leaves it 0, the end of a PACK ORs the mark into it, and
everything else keeps it. -/
theorem oorIsStickyUntilReset : Obligations.OorIsStickyUntilReset := by
  intro s t h
  obtain ⟨hreset, hclear⟩ | ⟨hend, hmark⟩ | ⟨hnot, hkeep⟩ := step_oor_cases h
  · refine ⟨fun _ => .inr hreset, fun _ hset => ?_, fun hp hdue _ _ => ?_⟩
    · rw [hclear] at hset
      cases hset
    · obtain ⟨n, rest, hpend, hidle | rfl⟩ | ⟨hidle, -⟩ := hreset
      · cases hp.symm.trans hidle
      · exact absurd hpend (hdue rest)
      · cases hp.symm.trans hidle
  · rw [hmark]
    refine ⟨fun hoor => .inl (by simp [stickyOor, hoor]), fun hoor hset => ⟨hend.1, hend.2, ?_⟩,
      fun _ _ _ hlat => by simp [stickyOor, hlat]⟩
    simpa [stickyOor, hoor] using hset
  · refine ⟨fun hoor => .inl (hkeep.trans hoor), fun hoor hset => ?_, fun hp _ hidx => absurd ⟨hp, hidx⟩ hnot⟩
    cases hset.symm.trans (hkeep.trans hoor)

/-- Settles O44, field by field. The last clause holds because the block reset and the reset state agree on every
field but the parameters and the ports, which the clause overwrites. -/
theorem resetStateIsAllZero : Obligations.ResetStateIsAllZero :=
  ⟨read_nil, rfl, rfl, rfl, rfl, rfl, rfl, rfl, rfl, rfl, rfl, fun _ => rfl⟩

end Sys2Proof.Proofs

/-! PROOFS. 30_encoding.md: the operations the pseudo-instructions' transactions decode to (rule R60). -/
namespace Sys2Proof.Proofs

open Sys2Proof.Laws

/-! ### The request of a format-H operation -/

/-- An operation that is encoded by its own request is what that request decodes to: its round trip through the
65-bit serialisation, without the serialisation (30_encoding.md rules R52 and R56). -/
theorem decode_requestOf {i : Instr} (hround : RoundTrip.Statement i) (hwf : i.wellFormed = true)
    (hformat : encode i = .formatH (serialise (requestOf i))) : decode (requestOf i) = i := by
  have h : decodeBits (encode i) = i := hround hwf
  rwa [hformat, decodeBits, deserialise_serialise] at h

theorem decode_wr_cmdAddr (c : Word) : decode ⟨.wr, cmdAddr, c⟩ = .wrCmd c :=
  decode_requestOf (RoundTrip.wrCmd c) rfl rfl

theorem decode_rd_statusAddr : decode ⟨.rd, statusAddr, 0#32⟩ = .rdStatus :=
  decode_requestOf RoundTrip.rdStatus rfl rfl

theorem decode_rd_bppAddr : decode ⟨.rd, bppAddr, 0#32⟩ = .rdBpp :=
  decode_requestOf RoundTrip.rdBpp rfl rfl

theorem decode_wr_bppAddr (n : Word) : decode ⟨.wr, bppAddr, n⟩ = .wrBpp n :=
  decode_requestOf (RoundTrip.wrBpp n) rfl rfl

theorem decode_rd_windowAddr (k : BitVec 31) : decode ⟨.rd, windowAddr k, 0#32⟩ = .rdBmp k :=
  decode_requestOf (RoundTrip.rdBmp k) rfl rfl

theorem decode_wr_windowAddr (k : BitVec 31) (v : Word) : decode ⟨.wr, windowAddr k, v⟩ = .wrBmp k v :=
  decode_requestOf (RoundTrip.wrBmp k v) rfl rfl

/-! ### The obligation -/

/-- Settles O40, one pseudo-instruction after the other: each transaction is the request of a format-H operation. -/
theorem pseudoInstructionsExpand : Obligations.PseudoInstructionsExpand := by
  refine ⟨?clear, ?pack, ?reset, ?getbpp, ?getstatus, fun n => ?setbpp, fun k => ?peek, fun k v => ?poke,
    fun n => ?loadimg⟩
  case clear | pack | reset => simp only [expand, List.map, decode_wr_cmdAddr]
  case getbpp => simp only [expand, List.map, decode_rd_bppAddr]
  case getstatus => simp only [expand, List.map, decode_rd_statusAddr]
  case setbpp => simp only [expand, List.map, decode_wr_bppAddr]
  case peek => simp only [expand, List.map, decode_rd_windowAddr]
  case poke => simp only [expand, List.map, decode_wr_windowAddr]
  case loadimg => simp only [expand, List.map, decode_wr_bppAddr, decode_wr_cmdAddr]

end Sys2Proof.Proofs

/-! PROOFS. 40_host_access.md: the reads and writes of STATUS, BPP and the window (rules R72 to R76 and R78). -/
namespace Sys2Proof.Proofs

open Sys2Proof.Machine Sys2Proof.Laws

section

variable {s : State}

/-! ### A RD decodes by its address alone -/

/-- Data is ignored on RD (30_encoding.md rule R51). -/
theorem decode_rd_ignores_data (a wdata : Word) : decode ⟨.rd, a, wdata⟩ = decode ⟨.rd, a, 0#32⟩ := rfl

/-! ### STATUS by its two fields -/

/-- RD.STATUS answers the word of OOR and RESULT, where both are known (40_host_access.md rule R72). -/
theorem exec_rdStatus_of_fields {o : Bool} {r : BitVec 4} (hr : s.result = r) (ho : s.oor = o) :
    exec .rdStatus s = .next (s.respond (.data (0#27 ++ BitVec.ofBool o ++ r))) := by
  subst ho hr
  exact exec_rdStatus s

/-! ### PACK's depth check -/

theorem legalDepth_eq_false_iff {b : Nat} : legalDepth b = false ↔ b ∉ [1, 2, 4, 8, 16, 32] := by
  rw [← Bool.not_eq_true, legalDepth_iff]
  simp

/-- The depth decides the last check of 41_pack.md rule R82, once the source has passed the first two. -/
theorem packCheck_of_illegal_depth (ha : s.src.available = true) (hi : s.src.indexed = true)
    (hd : legalDepth s.bpp.toNat = false) : s.packCheck = some .invalidDepth := by
  obtain ⟨h, -⟩ | ⟨-, h, -⟩ | ⟨-, -, -, hcheck⟩ | ⟨-, -, h, -⟩ := packCheck_cases s
  · cases ha.symm.trans h
  · cases hi.symm.trans h
  · exact hcheck
  · cases hd.symm.trans h

end

/-! ### The obligations -/

/-- Settles O5, by the law of a read after a write; the rest of the state is not touched by a store. -/
theorem wrBmpReplacesOneWholeWord : Obligations.WrBmpReplacesOneWholeWord := by
  refine ⟨decode_wr_windowAddr, fun s k v hwf hk => ?below, fun s k v hk => ?beyond⟩
  case below =>
    refine ⟨(s.setWord k.toNat v).respond .done, ?_, read_write s.bmp hwf k.toNat v, rfl, rfl⟩
    rw [exec_wrBmp, if_pos hk]
  case beyond =>
    rw [exec_wrBmp, if_neg (Nat.not_lt.mpr hk)]
    rfl

/-- Settles O1: the read answers the status word, and each example value is that word at the fields' values. -/
theorem rdStatusReturnsTheStatusWord : Obligations.RdStatusReturnsTheStatusWord := by
  refine ⟨fun v => (decode_rd_ignores_data _ v).trans decode_rd_statusAddr, exec_rdStatus, rfl,
    fun s hcheck hoor => ?failed, fun s hoor hresult => exec_rdStatus_of_fields hresult hoor⟩
  case failed =>
    have hcode : ((s.setResult .invalidDepth).respond .done).result = 3#4 := rfl
    exact ⟨_, exec_pack_raises hcheck, exec_rdStatus_of_fields hcode hoor⟩

/-- Settles O2: the read answers BPP whole, which a WR.BPP just before has set to its data. -/
theorem rdBppReturnsTheDepthLastWritten : Obligations.RdBppReturnsTheDepthLastWritten :=
  ⟨fun v => (decode_rd_ignores_data _ v).trans decode_rd_bppAddr, exec_rdBpp,
    fun s v => ⟨_, exec_wrBpp v s, exec_rdBpp _⟩, rfl⟩

/-- Settles O3: nothing looks at the value when it is stored; PACK's depth check is the first that fails on it. -/
theorem wrBppStoresAnyDepthUnchecked : Obligations.WrBppStoresAnyDepthUnchecked := by
  refine ⟨decode_wr_bppAddr, fun s v => exec_wrBpp v s, fun s v ha hi hv => ⟨_, exec_wrBpp v s, ?_⟩⟩
  have hcheck : ((s.setBpp v).respond .done).packCheck = some .invalidDepth :=
    packCheck_of_illegal_depth ha hi (legalDepth_eq_false_iff.mpr hv)
  exact exec_pack_raises hcheck

/-- Settles O4: the read answers the word or ERR, and only adds that response. -/
theorem rdBmpReturnsTheWordOrErr : Obligations.RdBmpReturnsTheWordOrErr :=
  ⟨fun k v => (decode_rd_ignores_data _ v).trans (decode_rd_windowAddr k), fun s k => exec_rdBmp k s⟩

/-- Settles O8, read by read: the answer is computed from STATUS, BPP or the buffer, none of which the record of
responses is part of. -/
theorem readsChangeNothingAndRepeat : Obligations.ReadsChangeNothingAndRepeat := by
  rintro i s (rfl | rfl | ⟨k, rfl⟩)
  · exact ⟨.data s.status, fun past => exec_rdStatus { s with responses := past }⟩
  · exact ⟨.data s.bpp, fun past => exec_rdBpp { s with responses := past }⟩
  · exact ⟨if k.toNat < s.params.bufWords then .data (s.word k.toNat) else .err,
      fun past => exec_rdBmp k { s with responses := past }⟩

end Sys2Proof.Proofs

/-! PROOFS. 41_pack.md sections 3 and 4: the tile address mapper reads back (rules R85 to R89), and a field lies in its
own place of its word (rules R91 to R94). -/
namespace Sys2Proof.Proofs

open Sys2Proof.Machine Sys2Proof.Laws

/-! ### The parts of a position -/

section

variable (i w : Nat)

theorem stripY_lt : stripY i w < 8 := Nat.mod_lt _ (by decide)

/-- `TileAddr` in one equation (rules R85, R86 and R88). -/
theorem tileAddr_eq : tileAddr i w = stripX i w % 8 + stripY i w * 8 + stripX i w / 8 * 64 := rfl

/-- The column inside the tile (rule R87). -/
theorem tileAddr_mod_eight : tileAddr i w % 8 = stripX i w % 8 := by
  have hy := stripY_lt i w
  rw [tileAddr_eq]
  omega

/-- The row inside the tile (rule R87). -/
theorem tileAddr_div_eight_mod_eight : tileAddr i w / 8 % 8 = stripY i w := by
  have hy := stripY_lt i w
  rw [tileAddr_eq]
  omega

/-- The tile's number (rule R87). -/
theorem tileAddr_div_sixtyFour : tileAddr i w / 64 = stripX i w / 8 := by
  have hy := stripY_lt i w
  rw [tileAddr_eq]
  omega

/-- The place inside the tile (rule R87). -/
theorem tileAddr_mod_sixtyFour : tileAddr i w % 64 = 8 * stripY i w + stripX i w % 8 := by
  have hy := stripY_lt i w
  rw [tileAddr_eq]
  omega

end

/-! ### Back from the strip to the image -/

section

variable {i w : Nat}

/-- Where tiles and strips line up, tiles are numbered row by row over the grid of tiles (rule R87). -/
theorem stripX_div_eight (h : 8 ∣ w) : stripX i w / 8 = i / w / 8 * (w / 8) + i % w / 8 := by
  obtain ⟨c, rfl⟩ := h
  have hcols : stripX i (8 * c) = i % (8 * c) + 8 * (i / (8 * c) / 8 * c) := by
    rw [stripX, pixelX, pixelY, Nat.mul_left_comm]
  rw [hcols, Nat.add_mul_div_left _ _ (by decide), Nat.mul_div_cancel_left _ (by decide), Nat.add_comm]

theorem stripX_mod (i w : Nat) : stripX i w % w = i % w := by
  rw [stripX, pixelX, Nat.add_mul_mod_self_right, Nat.mod_mod]

theorem stripX_div (hw : 1 ≤ w) (i : Nat) : stripX i w / w = i / w / 8 := by
  rw [stripX, pixelX, pixelY, Nat.add_mul_div_right _ _ hw, Nat.div_eq_of_lt (Nat.mod_lt i hw), Nat.zero_add]

/-- The stated inverse finds the index (rule R89(a)): the position gives `x'` and `y'`, they give the pixel's column
and row, and these give `i`. -/
theorem tileIndex_tileAddr (hw : 1 ≤ w) (i : Nat) : tileIndex (tileAddr i w) w = i := by
  have hx : 8 * (stripX i w / 8) + stripX i w % 8 = stripX i w := Nat.div_add_mod _ _
  have hy : 8 * (i / w / 8) + stripY i w = i / w := Nat.div_add_mod _ _
  simp only [tileIndex, tileAddr_mod_eight, tileAddr_div_eight_mod_eight, tileAddr_div_sixtyFour, hx, stripX_mod,
    stripX_div hw, hy]
  exact Nat.div_add_mod' i w

/-- Different indices never get the same position (rule R89(a)). -/
theorem tileAddr_injective (hw : 1 ≤ w) {j : Nat} (h : tileAddr i w = tileAddr j w) : i = j := by
  rw [← tileIndex_tileAddr hw i, h, tileIndex_tileAddr hw j]

end

/-! ### A field in its word -/

section

variable {b : Nat}

theorem legalDepth_iff_mem : legalDepth b = true ↔ b ∈ [1, 2, 4, 8, 16, 32] := by
  rw [legalDepth_iff]
  simp

/-- The field ends inside the word (rule R91). -/
theorem fieldShift_add_le (hb : legalDepth b = true) (pos : Nat) : fieldShift pos b + b ≤ 32 := by
  have hplace : pos % bpi b + 1 ≤ bpi b := Nat.mod_lt _ (bpi_pos hb)
  calc fieldShift pos b + b = (pos % bpi b + 1) * b := (Nat.succ_mul _ _).symm
    _ ≤ bpi b * b := Nat.mul_le_mul_right b hplace
    _ = 32 := bpi_mul hb

/-- A field fits the word (rule R94(a)). -/
theorem fieldValue_lt (hb : legalDepth b = true) (pos v : Nat) : fieldValue pos b v < 2 ^ 32 := by
  have hmask : v &&& mask b < 2 ^ b := by
    rw [mask, Nat.and_two_pow_sub_one_eq_mod]
    exact Nat.mod_lt _ (Nat.two_pow_pos b)
  refine (Nat.shiftLeft_lt hmask).trans_le (Nat.pow_le_pow_right (by decide) ?_)
  rw [Nat.add_comm]
  exact fieldShift_add_le hb pos

/-- A bit of the field of `pos` gives the field's place in the word (rule R91). -/
theorem div_depth_of_mem_field {pos n : Nat} (hle : fieldShift pos b ≤ n) (hlt : n < fieldShift pos b + b) :
    n / b = pos % bpi b :=
  Nat.div_eq_of_lt_le hle (by rwa [Nat.succ_mul])

/-- Inside the field of `pos` there are bits of no other position's field (rule R94(b)). -/
theorem eq_of_fieldValue_testBit {pos pos' v j : Nat}
    (hword : wordIndex pos' b = wordIndex pos b) (hj : j < b)
    (hbit : (fieldValue pos' b v).testBit (fieldShift pos b + j) = true) : pos' = pos := by
  simp only [fieldValue_testBit, Bool.and_eq_true, decide_eq_true_eq] at hbit
  obtain ⟨hge, hlt, -⟩ := hbit
  have hplace : pos' % bpi b = pos % bpi b := by
    rw [← div_depth_of_mem_field hge (by omega), div_depth_of_mem_field (Nat.le_add_right _ j) (by omega)]
  rw [← wordIndex_add pos' b, ← wordIndex_add pos b, hword, hplace]

/-- A field's own bits are the value's, up to the depth (rule R93). -/
theorem fieldValue_testBit_shift_add {j : Nat} (hj : j < b) (pos v : Nat) :
    (fieldValue pos b v).testBit (fieldShift pos b + j) = v.testBit j := by
  rw [fieldValue_testBit]
  simp [hj]

end

/-! ### The obligations -/

/-- Settles O27: the strip remap and the tile position, one after the other, are the definition. -/
theorem tileAddrIsStripRemapThenTilePosition : Obligations.TileAddrIsStripRemapThenTilePosition := by
  rintro i w _ _ _ _ - rfl rfl rfl rfl
  exact tileAddr_eq i w

/-- Settles O28, part by part of the position. -/
theorem positionReadsBackAsTileRowColumn : Obligations.PositionReadsBackAsTileRowColumn := fun i w _ =>
  ⟨tileAddr_mod_eight i w, tileAddr_div_eight_mod_eight i w, tileAddr_div_sixtyFour i w, tileAddr_mod_sixtyFour i w,
    fun h => (tileAddr_div_sixtyFour i w).trans (stripX_div_eight h)⟩

/-- Settles O33: the place of a field ends inside the word, so the masked value shifted to it fits. -/
theorem fieldsFitTheirWord : Obligations.FieldsFitTheirWord := fun pos b v hb => by
  have hlegal := legalDepth_iff_mem.mpr hb
  exact ⟨rfl, Nat.dvd_mul_left b _, Nat.le_sub_of_add_le (fieldShift_add_le hlegal pos), fieldValue_lt hlegal pos v⟩

end Sys2Proof.Proofs

/-! PROOFS. 41_pack.md sections 2, 5 and 6: the acceptance checks, the pixel-step, the PACK as a whole and the masking
law (rules R82, R95, R98 and R101). -/
namespace Sys2Proof.Proofs

open Sys2Proof.Machine Sys2Proof.Laws Sys2Proof.Safety

/-! ### One pixel-step -/

section

variable {s : State}

theorem byte?_eq_some {src : Source} {i : Nat} {v : Byte} (h : src.bytes[i]? = some v) :
    src.byte? i = some v.toNat := by
  rw [Source.byte?, h, Option.map_some]

theorem byte_eq {src : Source} {i : Nat} {v : Byte} (h : src.bytes[i]? = some v) : src.byte i = v.toNat := by
  rw [Source.byte, byte?_eq_some h, Option.getD_some]

theorem byte?_of_lt_length {src : Source} {i : Nat} (h : i < src.bytes.length) :
    src.byte? i = some (src.byte i) := by
  have hv : src.bytes[i]? = some src.bytes[i] := List.getElem?_eq_getElem h
  rw [byte?_eq_some hv, byte_eq hv]

/-- The divisors of rules R85 to R91 are those of a width of at least 1 and a legal depth. -/
theorem divisible_of_legal (hw : s.wLat.toNat ≠ 0) (hb : legalDepth s.bppLat.toNat = true) : s.divisible = true := by
  have hw' : s.wLat ≠ 0#16 := fun h => hw (by rw [h]; rfl)
  have hb' : bpi s.bppLat.toNat ≠ 0 := Nat.ne_of_gt (bpi_pos hb)
  simp [State.divisible, hw', hb']

/-- The framebuffer writer in numbers (rule R95): the field is ORed into its word, or the mark is set. -/
theorem mergeField_ors_or_marks (hs : s.bmp.wf) {p : PixelField} (hp : p.value < 2 ^ 32) :
    if p.word < s.params.bufWords then
      (∀ j, ((s.mergeField p).bmp.read j).toNat =
        if j = p.word then (s.bmp.read j).toNat ||| p.value else (s.bmp.read j).toNat) ∧
      (s.mergeField p).oorLat = s.oorLat
    else (s.mergeField p).bmp = s.bmp ∧ (s.mergeField p).oorLat = true := by
  split_ifs with hword
  · rw [mergeField_below hword]
    refine ⟨fun j => ?_, rfl⟩
    rw [setWord_bmp, read_write s.bmp hs]
    split_ifs with hj
    · rw [BitVec.toNat_or, BitVec.toNat_ofNat, Nat.mod_eq_of_lt hp, hj, State.word]
    · rfl
  · rw [mergeField_beyond (Nat.le_of_not_lt hword)]
    exact ⟨rfl, rfl⟩

/-- Counting a pixel does not wrap while one is left (rule R96). -/
theorem idx_succ_toNat (h : s.idx < s.nLat) : (s.idx + 1#32).toNat = s.idx.toNat + 1 := by
  have hlt : s.idx.toNat < s.nLat.toNat := h
  have hmax := s.nLat.isLt
  have hfits : s.idx.toNat + 1 < 2 ^ 32 := by omega
  rw [BitVec.toNat_add]
  exact Nat.mod_eq_of_lt hfits

end

/-! ### Many pixels merged -/

section

variable (s : State) (order : List Nat)

@[simp] theorem mergeAll_src : (s.mergeAll order).src = s.src := by rw [mergeAll_frame]

/-- One pixel more, merged after the others. -/
theorem mergeAll_append_singleton (i : Nat) :
    s.mergeAll (order ++ [i]) = (s.mergeAll order).mergePixel i (s.src.byte i) := by
  rw [← mergeAll_src s order]
  exact List.foldl_append

variable {s}

/-- The bits of a word after one pixel of the presented source is merged. -/
theorem mergePixel_word_getLsbD (hs : s.bmp.wf) (hw : s.wLat = s.src.w) (i k : Nat) {j : Nat} (hj : j < 32) :
    ((s.mergePixel i (s.src.byte i)).word k).getLsbD j = true ↔
      (s.word k).getLsbD j = true ∨ (k < s.params.bufWords ∧ (s.src.field s.bppLat.toNat i).word = k ∧
        (s.src.field s.bppLat.toNat i).value.testBit j = true) := by
  rw [State.mergePixel, pixelField_latched hw, mergeField_word hs]
  split_ifs with h
  · obtain ⟨rfl, hk⟩ := h
    rw [BitVec.getLsbD_or, BitVec.getLsbD_ofNat]
    simp [hk, hj]
  · exact ⟨.inl, fun h' => h'.resolve_right fun ⟨hk, hword, _⟩ => h ⟨hword.symm, hword ▸ hk⟩⟩

/-- The bits of a word after the pixels of a list are merged: those it had, and those of the fields sent to it. -/
theorem mergeAll_word_getLsbD (hs : s.bmp.wf) (hw : s.wLat = s.src.w) (k : Nat) {j : Nat} (hj : j < 32) :
    ((s.mergeAll order).word k).getLsbD j = true ↔
      (s.word k).getLsbD j = true ∨ (k < s.params.bufWords ∧
        ∃ i ∈ order, (s.src.field s.bppLat.toNat i).word = k ∧
          (s.src.field s.bppLat.toNat i).value.testBit j = true) := by
  induction order generalizing s with
  | nil => simp
  | cons i order ih =>
    have hwf : (s.mergePixel i (s.src.byte i)).bmp.wf := mergeField_wf hs _
    rw [mergeAll_cons, ih hwf (by simpa using hw), mergePixel_word_getLsbD hs hw i k hj]
    simp only [mergePixel_params, mergePixel_src, mergePixel_bppLat, List.exists_mem_cons_iff]
    tauto

/-- The first `n` pixels OR `P(src, bpp)` into the words that exist (rule R98). -/
theorem mergeAll_range_word (hs : s.bmp.wf) (hw : s.wLat = s.src.w) (n k : Nat) :
    (s.mergeAll (List.range n)).word k =
      if k < s.params.bufWords then s.word k ||| s.src.packedWord s.bppLat.toNat n k else s.word k := by
  refine BitVec.eq_of_getLsbD_eq fun j hj => Bool.eq_iff_iff.mpr ?_
  rw [mergeAll_word_getLsbD _ hs hw k hj]
  split_ifs with hk
  · rw [BitVec.getLsbD_or, Bool.or_eq_true, packedWord_getLsbD _ _ _ _ hj]
    simp [hk]
  · simp [hk]

/-- The first `n` pixels set the out-of-range mark when one of them has no word (rule R98). -/
theorem mergeAll_range_oorLat (hw : s.wLat = s.src.w) (n : Nat) :
    (s.mergeAll (List.range n)).oorLat =
      (s.oorLat || s.src.outOfRange s.bppLat.toNat n s.params.bufWords) :=
  mergeAll_oorLat hw (List.range n)

end

/-! ### The engine from its first pixel to its last -/

/-- The state of the engine after the first `n` pixels (rule R96). -/
def afterPixels (u : State) (n : Nat) : State := { u.mergeAll (List.range n) with idx := BitVec.ofNat 32 n }

section

variable (u : State) (n : Nat)

@[simp] theorem afterPixels_params : (afterPixels u n).params = u.params := by rw [afterPixels, mergeAll_frame]
@[simp] theorem afterPixels_bpp : (afterPixels u n).bpp = u.bpp := by rw [afterPixels, mergeAll_frame]
@[simp] theorem afterPixels_result : (afterPixels u n).result = u.result := by rw [afterPixels, mergeAll_frame]
@[simp] theorem afterPixels_oor : (afterPixels u n).oor = u.oor := by rw [afterPixels, mergeAll_frame]
@[simp] theorem afterPixels_phase : (afterPixels u n).phase = u.phase := by rw [afterPixels, mergeAll_frame]
@[simp] theorem afterPixels_nLat : (afterPixels u n).nLat = u.nLat := by rw [afterPixels, mergeAll_frame]
@[simp] theorem afterPixels_wLat : (afterPixels u n).wLat = u.wLat := by rw [afterPixels, mergeAll_frame]
@[simp] theorem afterPixels_bppLat : (afterPixels u n).bppLat = u.bppLat := by rw [afterPixels, mergeAll_frame]
@[simp] theorem afterPixels_src : (afterPixels u n).src = u.src := by rw [afterPixels, mergeAll_frame]
@[simp] theorem afterPixels_pending : (afterPixels u n).pending = u.pending := by rw [afterPixels, mergeAll_frame]
@[simp] theorem afterPixels_responses : (afterPixels u n).responses = u.responses := by rw [afterPixels, mergeAll_frame]
@[simp] theorem afterPixels_idx : (afterPixels u n).idx = BitVec.ofNat 32 n := rfl

end

/-- An engine at its first pixel, with all it needs to reach the last (rules R83 and R84; 40_host_access.md rule
R79). -/
structure EngineReady (u : State) : Prop where
  phase : u.phase = .packing
  pending : NoResetDue u.pending
  idx : u.idx = 0#32
  width : 0 < u.nLat.toNat → u.wLat.toNat ≠ 0
  depth : legalDepth u.bppLat.toNat = true
  bytes : u.nLat.toNat ≤ u.src.bytes.length

section

variable {u : State}

theorem afterPixels_zero (h : u.idx = 0#32) : afterPixels u 0 = u := by
  rw [afterPixels, List.range_zero, mergeAll_nil, ← h]

/-- Neither merging nor counting looks at what the other writes. -/
theorem mergePixel_with_idx (s : State) (n : BitVec 32) (i v : Nat) :
    { s with idx := n }.mergePixel i v = { s.mergePixel i v with idx := n } := by
  simp only [State.mergePixel, State.mergeField]
  split <;> rfl

/-- One pixel-step more (rule R96). -/
theorem afterPixels_succ (u : State) (n : Nat) :
    afterPixels u (n + 1) = ((afterPixels u n).mergePixel n (u.src.byte n)).advance := by
  have hmerge := mergePixel_with_idx (u.mergeAll (List.range n)) (BitVec.ofNat 32 n) n (u.src.byte n)
  rw [afterPixels, List.range_succ, mergeAll_append_singleton, afterPixels, hmerge, BitVec.ofNat_add]
  rfl

/-- The engine's step at pixel `n`. -/
theorem EngineReady.step_afterPixels (h : EngineReady u) {n : Nat} (hn : n < u.nLat.toNat) :
    step (afterPixels u n) = .next (afterPixels u (n + 1)) := by
  have hidx : (afterPixels u n).idx.toNat = n := Nat.mod_eq_of_lt (by have := u.nLat.isLt; omega)
  have hlt : (afterPixels u n).idx < (afterPixels u n).nLat := by
    rw [BitVec.lt_def, hidx]
    simpa using hn
  have hdiv : (afterPixels u n).divisible = true :=
    divisible_of_legal (by simpa using h.width (by omega)) (by simpa using h.depth)
  have hbyte : (afterPixels u n).src.byte? (afterPixels u n).idx.toNat = some (u.src.byte n) := by
    rw [hidx, ← byte?_of_lt_length (hn.trans_le h.bytes)]
    simp
  rw [step_packing_engine (by simpa using h.phase) (by simpa using h.pending),
    engineStep_pixel hlt hdiv hbyte, hidx, afterPixels_succ]

/-- `n` steps of the engine are the first `n` pixels merged in order (rule R96). -/
theorem EngineReady.run_afterPixels (h : EngineReady u) {n : Nat} (hn : n ≤ u.nLat.toNat) :
    Host.Core.run core n u = .next (afterPixels u n) := by
  induction n with
  | zero => rw [afterPixels_zero h.idx, core_run_zero]
  | succ n ih => rw [core_run_add (ih (by omega)), core_run_succ (h.step_afterPixels hn), core_run_zero]

/-- After the last pixel the engine completes (rules R96 and R97). -/
theorem EngineReady.step_last (h : EngineReady u) :
    step (afterPixels u u.nLat.toNat) = .next (afterPixels u u.nLat.toNat).complete := by
  rw [step_packing_engine (by simpa using h.phase) (by simpa using h.pending)]
  exact engineStep_complete (by simp)

end

/-! ### An accepted PACK from beginning to end -/

/-- The state right after the host's next transaction, a PACK, is accepted (rule R83). -/
def acceptedPack (s : State) (rest : List Event) : State := (s.setPending rest).accept.respond .done

section

variable {s : State} {rest : List Event}

/-- The request that carries PACK runs PACK's own operation (40_host_access.md rule R71). -/
theorem exec_pack_request (s : State) : exec (decode ⟨.wr, 0x00000000#32, 0x00000002#32⟩) s = exec .pack s := by
  rw [(decode_eq_wrCmd_iff _ _).mpr rfl, exec_wrCmd]
  rfl

theorem legalDepth_of_packReady (h : PackReady s rest) : legalDepth s.bpp.toNat = true := by
  obtain ⟨-, -, hcheck, -⟩ := h
  exact (packCheck_none_iff.mp hcheck).2.2

theorem acceptedPack_wf (h : PackReady s rest) : (acceptedPack s rest).bmp.wf := by
  obtain ⟨⟨-, ⟨hwf, -⟩, -⟩, -⟩ := h
  exact hwf

/-- The accepting step. -/
theorem step_packReady (h : PackReady s rest) : step s = .next (acceptedPack s rest) := by
  obtain ⟨-, hidle, hcheck, -, hpending, -⟩ := h
  rw [step_idle_request hidle hpending, exec_pack_request]
  exact exec_pack_accepts hcheck

theorem acceptedPack_nLat_toNat (s : State) (rest : List Event) :
    (acceptedPack s rest).nLat.toNat = s.pixelCount := accept_nLat_toNat (s.setPending rest)

theorem acceptedPack_bppLat_toNat (h : PackReady s rest) : (acceptedPack s rest).bppLat.toNat = s.bpp.toNat := by
  have hdepth := legalDepth_of_packReady h
  exact accept_bppLat_toNat (s := s.setPending rest) hdepth

/-- An image with a pixel has a width (rule R84). -/
theorem width_ne_zero_of_pixelCount_pos (h : 0 < s.pixelCount) : s.src.w.toNat ≠ 0 := fun hw => by
  simp [State.pixelCount, Source.pixelCount, hw] at h

/-- The accepted engine has all it needs, by the checks that passed and the provider's duty. -/
theorem engineReady_acceptedPack (h : PackReady s rest) : EngineReady (acceptedPack s rest) := by
  have hdepth : legalDepth (acceptedPack s rest).bppLat.toNat = true := by
    rw [acceptedPack_bppLat_toNat h]
    exact legalDepth_of_packReady h
  obtain ⟨-, -, hcheck, hsupplied, -, hrest⟩ := h
  obtain ⟨havailable, hindexed, -⟩ := packCheck_none_iff.mp hcheck
  refine ⟨rfl, hrest, rfl, fun hn => ?_, hdepth, ?_⟩
  · rw [acceptedPack_nLat_toNat] at hn
    exact width_ne_zero_of_pixelCount_pos hn
  · rw [acceptedPack_nLat_toNat]
    exact hsupplied havailable hindexed

/-- The acceptance, N pixel-steps and the completion (rules R96 and R98). -/
theorem run_packReady (h : PackReady s rest) :
    Host.Core.run core (s.pixelCount + 2) s =
      .next (afterPixels (acceptedPack s rest) s.pixelCount).complete := by
  have hready := engineReady_acceptedPack h
  have hn := acceptedPack_nLat_toNat s rest
  have hlast := hready.step_last
  rw [hn] at hlast
  rw [core_run_succ (step_packReady h), core_run_add (hready.run_afterPixels hn.ge), core_run_succ hlast,
    core_run_zero]

end

/-! ### Reading a packed pixel back -/

section

variable {src : Source} {b n i j : Nat}

/-- Pixel `i` alone gives `P(src, bpp)` the bits of its field: no two pixels have the same position (rules R89(a) and
R94(b)). -/
theorem packedWord_getLsbD_field (hb : legalDepth b = true) (hw : 1 ≤ src.w.toNat) (hi : i < n) (hj : j < b) :
    (src.packedWord b n (wordIndex (tileAddr i src.w.toNat) b)).getLsbD
      (fieldShift (tileAddr i src.w.toNat) b + j) = (src.byte i).testBit j := by
  have hfits := fieldShift_add_le hb (tileAddr i src.w.toNat)
  rw [Bool.eq_iff_iff, packedWord_getLsbD _ _ _ _ (by omega)]
  constructor
  · rintro ⟨i', -, hword, hbit⟩
    obtain rfl := tileAddr_injective hw (eq_of_fieldValue_testBit hword hj hbit)
    exact (fieldValue_testBit_shift_add hj _ _).symm.trans hbit
  · intro hv
    exact ⟨i, hi, rfl, (fieldValue_testBit_shift_add hj _ _).trans hv⟩

/-- ORing `P(src, bpp)` into a pixel's word ORs the masked byte into the pixel's field (rule R101). -/
theorem unpack_or_packedWord {m m' : Memory} (hb : legalDepth b = true) (hw : 1 ≤ src.w.toNat) (hi : i < n)
    (hword : m'.read (wordIndex (tileAddr i src.w.toNat) b) =
      m.read (wordIndex (tileAddr i src.w.toNat) b) |||
        src.packedWord b n (wordIndex (tileAddr i src.w.toNat) b)) :
    unpack m' (tileAddr i src.w.toNat) b = unpack m (tileAddr i src.w.toNat) b ||| (src.byte i &&& mask b) := by
  refine Nat.eq_of_testBit_eq fun j => ?_
  rw [Nat.testBit_or, unpack_testBit, unpack_testBit, masked_testBit, hword, BitVec.getLsbD_or]
  by_cases hj : j < b
  · simp [hj, packedWord_getLsbD_field hb hw hi hj]
  · simp [hj]

/-- A buffer of zeros reads back as 0 everywhere. -/
theorem unpack_of_zero {m : Memory} (h : ∀ k, m.read k = 0#32) (pos b : Nat) : unpack m pos b = 0 := by
  simp [unpack, h]

end

/-! ### The obligations -/

/-- Settles O18: the run is the acceptance, the pixels merged in order and the completion; the pixels leave
`P(src, bpp)` in the words and `Oor(src, bpp)` in the mark, and the completion reports the mark. -/
theorem packReachesTheOneTransitionState : Obligations.PackReachesTheOneTransitionState := by
  intro s rest h
  have hdepth := acceptedPack_bppLat_toNat h
  have hword := mergeAll_range_word (acceptedPack_wf h) rfl s.pixelCount
  have hmark := mergeAll_range_oorLat (s := acceptedPack s rest) rfl s.pixelCount
  rw [hdepth] at hword hmark
  have hmark : (afterPixels (acceptedPack s rest) s.pixelCount).oorLat =
      s.src.outOfRange s.bpp.toNat s.pixelCount s.params.bufWords := hmark.trans (Bool.false_or _)
  refine ⟨_, run_packReady h, hword, ?oor, ?result, ?nLat, ?wLat, ?bppLat, hmark, ?_⟩
  case oor =>
    rw [complete_oor, hmark, afterPixels_oor]
    rfl
  case result =>
    rw [complete_result, hmark, completionCode]
    split_ifs <;> rfl
  case nLat => simpa using acceptedPack_nLat_toNat s rest
  case wLat => simp [acceptedPack]
  case bppLat => simpa using hdepth
  simp [acceptedPack]

/-- Settles O19, from O18: the pixel's word is ORed with `P(src, bpp)`, in which the pixel's field is its own. -/
theorem packedPixelsReadBackMasked : Obligations.PackedPixelsReadBackMasked := by
  intro s rest h
  obtain ⟨t, hrun, hwords, -⟩ := packReachesTheOneTransitionState s rest h
  refine ⟨t, hrun, fun i v hi hv hexists => ?_⟩
  have hw : 1 ≤ s.src.w.toNat := Nat.pos_of_ne_zero (width_ne_zero_of_pixelCount_pos (by omega))
  have hfield := unpack_or_packedWord (legalDepth_of_packReady h) hw hi ((hwords _).trans (if_pos hexists))
  rw [byte_eq hv] at hfield
  refine ⟨hfield, fun hzero => ?_⟩
  rw [hfield, unpack_of_zero hzero, Nat.zero_or, mask]

/-- Settles O15: the step merges the field that the rules name, and its word is below or beyond `BUF_WORDS`. -/
theorem pixelStepOrsOneFieldIntoItsWord : Obligations.PixelStepOrsOneFieldIntoItsWord := by
  rintro s v _ _ _ _ _ _ _ _ _ hwf hlt hw hb hv rfl rfl rfl rfl rfl rfl rfl rfl rfl
  have hdepth := legalDepth_iff_mem.mpr hb
  have hstep := engineStep_pixel hlt (divisible_of_legal hw hdepth) (byte?_eq_some hv)
  refine ⟨_, hstep, by simpa using idx_succ_toNat hlt, ?_, ?_⟩
  · have hvalue := fieldValue_lt hdepth (tileAddr s.idx.toNat s.wLat.toNat) v.toNat
    exact mergeField_ors_or_marks (p := pixelField s.wLat.toNat s.bppLat.toNat s.idx.toNat v.toNat) hwf hvalue
  · rw [mergePixel_frame]
    rfl

/-- Settles O13, one check after the other. -/
theorem packFailsWithItsFirstFailingCheck : Obligations.PackFailsWithItsFirstFailingCheck := by
  refine ⟨fun s ha => ?unavailable, fun s ha hi => ?notIndexed, fun s ha hi hd => ?illegalDepth⟩
  case unavailable =>
    have hcheck : s.packCheck = some .sourceUnavailable := if_pos ha
    exact exec_pack_raises hcheck
  case notIndexed =>
    have hcheck : s.packCheck = some .unsupportedFormat := by simp [State.packCheck, ha, hi]
    exact exec_pack_raises hcheck
  case illegalDepth => exact exec_pack_raises (packCheck_of_illegal_depth ha hi (legalDepth_eq_false_iff.mpr hd))

end Sys2Proof.Proofs

/-! PROOFS. 42_clear_reset.md: CLEAR, RESET and the illegal command word (rules R110 to R112). -/
namespace Sys2Proof.Proofs

open Sys2Proof.Machine Sys2Proof.Laws

section

variable {s : State}

/-! ### A command word and the WR to CMD that carries it -/

theorem unassignedCommand_of_ne {c : Word} (h1 : c ≠ 0x00000001#32) (h2 : c ≠ 0x00000002#32)
    (h3 : c ≠ 0x00000003#32) : unassignedCommand c = true := by
  simp [unassignedCommand, h1, h2, h3]

/-- A WR to CMD does the operation its command word decodes to (40_host_access.md rule R71). -/
theorem exec_wrCmd_of_decodeBits {c : Word} {i : Instr} (h : decodeBits (.formatC c) = i) (s : State) :
    exec (.wrCmd c) s = exec i s :=
  h ▸ exec_wrCmd c s

/-- Only RESET clears OOR (10_state.md rule R15; 42_clear_reset.md rule R111). -/
theorem eq_reset_word_of_clears_oor {c : Word} {t : State} (h : exec (.wrCmd c) s = .next t) (hs : s.oor = true)
    (ht : t.oor = false) : c = 0x00000003#32 := by
  by_contra hc
  have hne : decodeCommand c ≠ .reset := fun e => hc ((decodeCommand_eq_reset_iff c).mp e)
  have hkeep : t.oor = s.oor := exec_command_keeps_oor hne ((exec_wrCmd c s).symm.trans h)
  cases ht.symm.trans (hkeep.trans hs)

/-! ### Updates that find their work done -/

/-- A second CLEAR finds every word 0 and RESULT OK (42_clear_reset.md rule R110). -/
theorem clear_eq_self (hbmp : s.bmp = Memory.zero) (hresult : s.result = ResultCode.ok.bits) :
    s.clearBitmap.setResult .ok = s := by
  rw [State.clearBitmap, State.setResult, ← hbmp, ← hresult]

/-- A second RESET finds the reset state, whatever has been answered since (42_clear_reset.md rule R111). -/
theorem blockReset_respond_blockReset (r : Response) :
    (s.blockReset.respond r).blockReset = s.blockReset.respond r := rfl

/-- PACK's depth check fails right after RESET: BPP is 0, which is no legal depth (41_pack.md rule R82). -/
theorem packCheck_blockReset_respond (ha : s.src.available = true) (hi : s.src.indexed = true) (r : Response) :
    (s.blockReset.respond r).packCheck = some .invalidDepth :=
  have hdepth : legalDepth (s.blockReset.respond r).bpp.toNat = false := rfl
  packCheck_of_illegal_depth ha hi hdepth

end

/-! ### The obligations -/

/-- Settles O10: CLEAR is the update of the buffer and of RESULT, and doing both again finds them done. -/
theorem clearZeroesTheBufferAlone : Obligations.ClearZeroesTheBufferAlone := by
  have hdecode : decodeBits (.formatC 0x00000001#32) = .clear := RoundTrip.clear rfl
  refine ⟨hdecode, exec_wrCmd_of_decodeBits hdecode, fun s => ⟨_, exec_clear s, read_zero, rfl, rfl, rfl, ?again⟩⟩
  case again =>
    rw [exec_clear, clear_eq_self rfl rfl]
    rfl

/-- Settles O11: RESET is the block reset, which agrees with the reset state on every field but the parameters and
the ports; a PACK behind it finds depth 0; and no other command touches OOR. -/
theorem resetRestoresTheResetState : Obligations.ResetRestoresTheResetState := by
  have hdecode : decodeBits (.formatC 0x00000003#32) = .reset := RoundTrip.reset rfl
  refine ⟨hdecode, exec_wrCmd_of_decodeBits hdecode,
    fun s => ⟨_, exec_reset s, rfl, ?again, fun ha hi => ?pack⟩, fun c s t => eq_reset_word_of_clears_oor⟩
  case again =>
    rw [exec_reset, blockReset_respond_blockReset]
    rfl
  case pack => exact exec_pack_raises (packCheck_blockReset_respond ha hi .done)

/-- Settles O12: a word that no row of format C takes decodes to ILLEGAL, and the WR to CMD does what it decodes
to. -/
theorem illegalCommandWordsOnlySetTheCode : Obligations.IllegalCommandWordsOnlySetTheCode := by
  refine ⟨fun c h1 h2 h3 => ?_, exec_illegal⟩
  have hdecode : decodeBits (.formatC c) = .illegal c := RoundTrip.illegal c (unassignedCommand_of_ne h1 h2 h3)
  exact ⟨hdecode, fun s => (exec_wrCmd_of_decodeBits hdecode s).trans (exec_illegal c s)⟩

end Sys2Proof.Proofs

/-! PROOFS. 10_state.md section 7: what every step keeps (rule R23), who writes BPP (rule R12), what STATUS reads
(rules R13 and R14); and that nothing is stuck (60_exceptions.md rule R136). -/
namespace Sys2Proof.Proofs

open Sys2Proof.Machine Sys2Proof.Laws Sys2Proof.Safety

/-! ### The invariant, update by update -/

section

variable {s : State}

theorem resultCode_bits_le (c : ResultCode) : c.bits ≤ 5#4 := by
  cases c <;> decide

theorem bitmapLegal_zero (n : Nat) : Memory.zero.wf ∧ ∀ c ∈ Memory.zero, c.1 < n :=
  ⟨wf_zero, by simp [Memory.zero]⟩

/-- The invariant does not speak of the ports nor of BPP. -/
theorem invariant_setPending (h : Invariant s) (l : List Event) : Invariant (s.setPending l) := h

theorem invariant_presentSource (h : Invariant s) (src : Source) : Invariant (s.presentSource src) := h

theorem invariant_respond (h : Invariant s) (r : Response) : Invariant (s.respond r) := h

theorem invariant_setBpp (h : Invariant s) (v : Word) : Invariant (s.setBpp v) := h

theorem invariant_setWord (h : Invariant s) {k : Nat} (hk : k < s.params.bufWords) (v : Word) :
    Invariant (s.setWord k v) := by
  obtain ⟨hparams, ⟨hwf, hbelow⟩, hresult, hpacking, hidle⟩ := h
  exact ⟨hparams, ⟨write_wf hwf k v, write_bounded hbelow hk v⟩, hresult, hpacking, hidle⟩

theorem invariant_clearBitmap (h : Invariant s) : Invariant s.clearBitmap := by
  obtain ⟨hparams, -, hresult, hpacking, hidle⟩ := h
  exact ⟨hparams, bitmapLegal_zero _, hresult, hpacking, hidle⟩

theorem invariant_setResult (h : Invariant s) (c : ResultCode) : Invariant (s.setResult c) := by
  obtain ⟨hparams, hbmp, -, hpacking, hidle⟩ := h
  exact ⟨hparams, hbmp, resultCode_bits_le c, hpacking, hidle⟩

theorem invariant_blockReset (h : Invariant s) : Invariant s.blockReset := by
  obtain ⟨hparams, -⟩ := h
  exact ⟨hparams, bitmapLegal_zero _, by simp, fun hp => by simp at hp, fun _ => rfl⟩

/-- The latches of an accepted PACK are legal: the depth by the third check, the count by its two bounds
(41_pack.md rules R83 and R84). -/
theorem invariant_accept (h : Invariant s) (hcheck : s.packCheck = none) : Invariant s.accept := by
  obtain ⟨hparams, hbmp, hresult, -, -⟩ := h
  obtain ⟨-, -, hdepth⟩ := packCheck_none_iff.mp hcheck
  have hcount : s.pixelCount ≤ s.src.w.toNat * 65535 :=
    (Nat.min_le_left _ _).trans (Nat.mul_le_mul_left _ (Nat.le_of_lt_succ s.src.h.isLt))
  refine ⟨hparams, hbmp, hresult, fun _ => ⟨?depth, Nat.zero_le _, ?capacity, ?width⟩, fun hp => by simp at hp⟩
  case depth => rwa [accept_bppLat_toNat hdepth]
  case capacity =>
    rw [accept_nLat_toNat]
    exact Nat.min_le_right _ _
  case width => rwa [accept_nLat_toNat]

theorem invariant_complete (h : Invariant s) : Invariant s.complete := by
  obtain ⟨hparams, hbmp, -⟩ := h
  exact ⟨hparams, hbmp, resultCode_bits_le _, fun hp => by simp at hp, fun _ => rfl⟩

/-- A pixel-step stays inside the buffer, and its count at or below `n_lat` (41_pack.md rules R95 and R96). -/
theorem invariant_pixel (h : Invariant s) (hp : s.phase = .packing) (hlt : s.idx < s.nLat) (i v : Nat) :
    Invariant (s.mergePixel i v).advance := by
  obtain ⟨hparams, ⟨hwf, hbelow⟩, hresult, hpacking, -⟩ := h
  obtain ⟨hdepth, -, hcapacity, hwidth⟩ := hpacking hp
  have hidx : s.idx + 1#32 ≤ s.nLat := by
    rw [BitVec.le_def, idx_succ_toNat hlt]
    exact hlt
  have hbmp := mergeField_bounded hbelow (pixelField s.wLat.toNat s.bppLat.toNat i v)
  refine ⟨by simpa using hparams, ⟨mergeField_wf hwf _, ?_⟩, by simpa using hresult, fun _ => ?_, ?_⟩
  · rwa [advance_params, mergePixel_params]
  · simpa using ⟨hdepth, hidx, hcapacity, hwidth⟩
  · simp [hp]

end

/-! ### What a transaction and an engine step leave alone -/

section

variable {s t : State} {i : Instr}

/-- A transaction leaves the parameters and the ports as they were but for its one response. -/
theorem exec_frame (h : exec i s = .next t) :
    t.params = s.params ∧ t.src = s.src ∧ t.pending = s.pending ∧ ∃ r, t.responses = s.responses ++ [r] := by
  obtain ⟨t', ht', hcases⟩ := exec_cases i s
  cases h.symm.trans ht'
  obtain ⟨r, rfl⟩ | ⟨v, rfl⟩ | ⟨k, v, -, rfl⟩ | rfl | rfl | ⟨c, rfl⟩ | ⟨-, rfl⟩ := hcases <;>
    exact ⟨rfl, rfl, rfl, _, rfl⟩

/-- The engine writes neither BPP nor anything outside the block (41_pack.md rule R102). -/
theorem engineStep_frame (h : engineStep s = .next t) :
    t.bpp = s.bpp ∧ t.params = s.params ∧ t.src = s.src ∧ t.pending = s.pending ∧ t.responses = s.responses := by
  obtain ⟨-, -, v, -, rfl⟩ | ⟨-, rfl⟩ := engineStep_cases h
  · simp
  · simp

end

/-! ### The invariant through a step -/

section

variable {s t : State}

theorem exec_keeps_invariant {i : Instr} (hs : Invariant s) (h : exec i s = .next t) : Invariant t := by
  obtain ⟨t', ht', hcases⟩ := exec_cases i s
  cases h.symm.trans ht'
  obtain ⟨r, rfl⟩ | ⟨v, rfl⟩ | ⟨k, v, hk, rfl⟩ | rfl | rfl | ⟨c, rfl⟩ | ⟨hcheck, rfl⟩ := hcases
  · exact invariant_respond hs r
  · exact invariant_respond (invariant_setBpp hs v) .done
  · exact invariant_respond (invariant_setWord hs hk v) .done
  · exact invariant_respond (invariant_setResult (invariant_clearBitmap hs) .ok) .done
  · exact invariant_respond (invariant_blockReset hs) .done
  · exact invariant_respond (invariant_setResult hs c) .done
  · exact invariant_respond (invariant_accept hs hcheck) .done

theorem engineStep_keeps_invariant (hs : Invariant s) (hp : s.phase = .packing) (h : engineStep s = .next t) :
    Invariant t := by
  obtain ⟨hlt, -, v, -, rfl⟩ | ⟨-, rfl⟩ := engineStep_cases h
  · exact invariant_pixel hs hp hlt _ v
  · exact invariant_complete hs

theorem step_keeps_invariant (hs : Invariant s) (h : step s = .next t) : Invariant t := by
  obtain ⟨n, l, -, -, rfl⟩ | ⟨-, hidle⟩ | ⟨hp, l, he, -⟩ := step_cases h
  · exact invariant_blockReset (invariant_setPending hs l)
  · obtain ⟨-, rfl⟩ | ⟨q, l, -, hx⟩ | ⟨src, l, -, rfl⟩ := hidle
    · exact hs
    · exact exec_keeps_invariant (invariant_setPending hs l) hx
    · exact invariant_presentSource (invariant_setPending hs l) src
  · exact engineStep_keeps_invariant (invariant_setPending hs l) hp he

end

/-! ### The latches through a step -/

section

variable {s t : State}

/-- An idle engine's latches are nobody's concern. -/
theorem latchesCurrent_of_idle (h : s.phase = .idle) : LatchesCurrent s := fun hp => by
  cases h.symm.trans hp

theorem latchesCurrent_accept (hcheck : s.packCheck = none) : LatchesCurrent s.accept := fun _ => by
  obtain ⟨havailable, hindexed, hdepth⟩ := packCheck_none_iff.mp hcheck
  exact ⟨havailable, hindexed, rfl, accept_bppLat_toNat hdepth, accept_nLat_toNat s⟩

theorem exec_keeps_latchesCurrent {i : Instr} (hp : s.phase = .idle) (h : exec i s = .next t) :
    LatchesCurrent t := by
  obtain ⟨t', ht', hcases⟩ := exec_cases i s
  cases h.symm.trans ht'
  obtain ⟨r, rfl⟩ | ⟨v, rfl⟩ | ⟨k, v, -, rfl⟩ | rfl | rfl | ⟨c, rfl⟩ | ⟨hcheck, rfl⟩ := hcases
  · exact latchesCurrent_of_idle hp
  · exact latchesCurrent_of_idle hp
  · exact latchesCurrent_of_idle hp
  · exact latchesCurrent_of_idle hp
  · exact latchesCurrent_of_idle rfl
  · exact latchesCurrent_of_idle hp
  · exact latchesCurrent_accept hcheck

theorem engineStep_keeps_latchesCurrent (hs : LatchesCurrent s) (h : engineStep s = .next t) :
    LatchesCurrent t := by
  obtain ⟨-, -, v, -, rfl⟩ | ⟨-, rfl⟩ := engineStep_cases h
  · simpa [LatchesCurrent, State.pixelCount] using hs
  · exact latchesCurrent_of_idle rfl

end

/-! ### What a request does, and BPP through it -/

section

variable {s t : State}

/-- A WR to BPP is the only request that decodes to WR.BPP (30_encoding.md rule R56). -/
theorem decode_eq_wrBpp_iff (q : Request) (v : Word) : decode q = .wrBpp v ↔ q = ⟨.wr, 0x00000002#32, v⟩ := by
  refine ⟨fun h => ?_, fun h => h ▸ decode_wr_bppAddr v⟩
  obtain ⟨dir, a, w⟩ := q
  cases dir with
  | rd => simp only [decode] at h; split_ifs at h
  | wr =>
    simp only [decode, bppAddr] at h
    split_ifs at h with h0 h2
    cases h
    rw [h2]

/-- Everything a request can do: a WR to CMD does its command, and any other adds its response and writes BPP or a
word of the buffer at most. -/
theorem exec_decode_cases (q : Request) (s : State) :
    (∃ c, q = ⟨.wr, 0x00000000#32, c⟩ ∧ exec (decode q) s = exec (decodeCommand c).toInstr s) ∨
    ∃ t, exec (decode q) s = .next t ∧
      ((∃ r, t = s.respond r) ∨ (∃ v, q = ⟨.wr, 0x00000002#32, v⟩ ∧ t = (s.setBpp v).respond .done) ∨
       ∃ k v, t = (s.setWord k v).respond .done) := by
  cases hi : decode q with
  | wrCmd c => exact .inl ⟨c, (decode_eq_wrCmd_iff q c).mp hi, exec_wrCmd c s⟩
  | rdStatus => exact .inr ⟨_, exec_rdStatus s, .inl ⟨_, rfl⟩⟩
  | rdBpp => exact .inr ⟨_, exec_rdBpp s, .inl ⟨_, rfl⟩⟩
  | wrBpp v => exact .inr ⟨_, exec_wrBpp v s, .inr (.inl ⟨v, (decode_eq_wrBpp_iff q v).mp hi, rfl⟩)⟩
  | rdBmp k => exact .inr ⟨_, exec_rdBmp k s, .inl ⟨_, rfl⟩⟩
  | wrBmp k v =>
    refine .inr ⟨_, exec_wrBmp k v s, ?_⟩
    split_ifs
    · exact .inr (.inr ⟨_, _, rfl⟩)
    · exact .inl ⟨_, rfl⟩
  | err dir a v => exact .inr ⟨_, exec_err dir a v s, .inl ⟨_, rfl⟩⟩
  | clear => exact absurd hi (decode_ne_command q .clear)
  | pack => exact absurd hi (decode_ne_command q .pack)
  | reset => exact absurd hi (decode_ne_command q .reset)
  | illegal c => exact absurd hi (decode_ne_command q (.illegal c))

/-- CLEAR, PACK and ILLEGAL leave BPP alone (10_state.md rule R12). -/
theorem exec_command_keeps_bpp {c : Command} (hc : c ≠ .reset) (h : exec c.toInstr s = .next t) :
    t.bpp = s.bpp := by
  cases c with
  | clear => cases h; rfl
  | pack =>
    cases hk : s.packCheck with
    | none => cases (exec_pack_accepts hk).symm.trans h; rfl
    | some code => cases (exec_pack_raises hk).symm.trans h; rfl
  | reset => exact absurd rfl hc
  | illegal c => cases h; rfl

/-- What a request does to BPP (10_state.md rule R12). -/
theorem exec_decode_bpp_cases {q : Request} (h : exec (decode q) s = .next t) :
    t.bpp = s.bpp ∨ (∃ v, q = ⟨.wr, 0x00000002#32, v⟩ ∧ t.bpp = v) ∨
    (q = ⟨.wr, 0x00000000#32, 0x00000003#32⟩ ∧ t.bpp = 0#32) := by
  obtain ⟨c, rfl, hcommand⟩ | ⟨t', ht', haccess⟩ := exec_decode_cases q s
  · rw [hcommand] at h
    by_cases hc : decodeCommand c = .reset
    · rw [hc] at h
      cases h
      rw [(decodeCommand_eq_reset_iff c).mp hc]
      exact .inr (.inr ⟨rfl, rfl⟩)
    · exact .inl (exec_command_keeps_bpp hc h)
  · cases h.symm.trans ht'
    obtain ⟨r, rfl⟩ | ⟨v, rfl, rfl⟩ | ⟨k, v, rfl⟩ := haccess
    · exact .inl rfl
    · exact .inr (.inl ⟨v, rfl, rfl⟩)
    · exact .inl rfl

end

/-! ### Nothing is stuck -/

section

variable {s t : State}

/-- A pixel-step without its source byte (93_implementation_defined.md X2). -/
theorem engineStep_missing (hlt : s.idx < s.nLat) (hd : s.divisible = true)
    (hv : s.src.byte? s.idx.toNat = none) : engineStep s = .refused .sourceByteMissing := by
  unfold engineStep pixelStep
  rw [if_pos hlt, if_neg (by simp [hd]), hv]

/-- The latched divisors of a running PACK are at least 1 while a pixel is left (00_scope.md rule R9). -/
theorem divisible_of_invariant (hs : Invariant s) (hp : s.phase = .packing) (hlt : s.idx < s.nLat) :
    s.divisible = true := by
  obtain ⟨-, -, -, hpacking, -⟩ := hs
  obtain ⟨hdepth, -, -, hwidth⟩ := hpacking hp
  have hpos : s.idx.toNat < s.nLat.toNat := hlt
  refine divisible_of_legal (fun hw => ?_) hdepth
  rw [hw] at hwidth
  omega

/-- Under the invariant an engine step has a next state, or the provider owes it a byte. -/
theorem engineStep_of_invariant (hs : Invariant s) (hp : s.phase = .packing) :
    (∃ t, engineStep s = .next t) ∨
    (s.idx < s.nLat ∧ s.src.byte? s.idx.toNat = none ∧ engineStep s = .refused .sourceByteMissing) := by
  by_cases hlt : s.idx < s.nLat
  · have hd := divisible_of_invariant hs hp hlt
    cases hv : s.src.byte? s.idx.toNat with
    | none => exact .inr ⟨hlt, rfl, engineStep_missing hlt hd hv⟩
    | some v => exact .inl ⟨_, engineStep_pixel hlt hd hv⟩
  · obtain ⟨-, -, -, hpacking, -⟩ := hs
    obtain ⟨-, hle, -⟩ := hpacking hp
    exact .inl ⟨_, engineStep_complete (BitVec.le_antisymm hle (BitVec.not_lt.mp hlt))⟩

theorem exists_powerOn_of_not_noResetDue {events : List Event} (h : ¬ NoResetDue events) :
    ∃ n rest, events = .powerOn n :: rest := by
  cases events with
  | nil => exact absurd trivial h
  | cons e rest =>
    cases e with
    | request q => exact absurd trivial h
    | present src => exact absurd trivial h
    | powerOn n => exact ⟨n, rest, rfl⟩

/-- A step that is not the engine's has a next state. -/
theorem step_next_or_engine (s : State) :
    (∃ t, step s = .next t) ∨ (s.phase = .packing ∧ ∃ l, step s = engineStep (s.setPending l)) := by
  cases hp : s.phase with
  | idle =>
    refine .inl ?_
    cases hq : s.pending with
    | nil => exact ⟨_, step_idle_nil hp hq⟩
    | cons e l =>
      cases e with
      | request q =>
        obtain ⟨t, ht, -⟩ := exec_cases (decode q) (s.setPending l)
        exact ⟨t, (step_idle_request hp hq).trans ht⟩
      | present src => exact ⟨_, step_idle_present hp hq⟩
      | powerOn n => exact ⟨_, step_idle_powerOn hp hq⟩
  | packing =>
    by_cases hn : NoResetDue s.pending
    · exact .inr ⟨rfl, s.pending, step_packing_engine hp hn⟩
    · obtain ⟨n, rest, hq⟩ := exists_powerOn_of_not_noResetDue hn
      cases n with
      | zero => exact .inl ⟨_, step_packing_powerOn_zero hp hq⟩
      | succ n => exact .inr ⟨rfl, _, step_packing_powerOn_succ hp hq⟩

/-- A provider that keeps its duty owes a running PACK no byte (40_host_access.md rule R79). -/
theorem byte?_of_supplied (hcurrent : LatchesCurrent s) (hsupplied : Supplied s.src s.params.capPixels)
    (hp : s.phase = .packing) (hlt : s.idx < s.nLat) :
    s.src.byte? s.idx.toNat = some (s.src.byte s.idx.toNat) := by
  obtain ⟨havailable, hindexed, -, -, hcount⟩ := hcurrent hp
  have hidx : s.idx.toNat < s.pixelCount := hcount ▸ hlt
  exact byte?_of_lt_length (hidx.trans_le (hsupplied havailable hindexed))

/-- With a provider that keeps its duty every step has a next state (60_exceptions.md rule R136). -/
theorem step_next_of_supplied (hs : Invariant s) (hcurrent : LatchesCurrent s)
    (hsupplied : Supplied s.src s.params.capPixels) : ∃ t, step s = .next t := by
  obtain h | ⟨hp, l, hl⟩ := step_next_or_engine s
  · exact h
  · obtain ⟨t, ht⟩ | ⟨hlt, hnone, -⟩ := engineStep_of_invariant (invariant_setPending hs l) hp
    · exact ⟨t, hl.trans ht⟩
    · cases hnone.symm.trans (byte?_of_supplied hcurrent hsupplied hp hlt)

/-- A step keeps the duty, because it takes events away and adds a nearer power-on reset at most. -/
theorem step_keeps_dutiful (hs : Dutiful s) (h : step s = .next t) : Dutiful t := by
  obtain ⟨hsrc, hpending⟩ := hs
  obtain ⟨n, l, hq, -, rfl⟩ | ⟨-, hidle⟩ | ⟨-, l, he, hl⟩ := step_cases h
  · exact ⟨hsrc, fun e he => hpending e (hq ▸ List.mem_cons_of_mem _ he)⟩
  · obtain ⟨-, rfl⟩ | ⟨q, l, hq, hx⟩ | ⟨src, l, hq, rfl⟩ := hidle
    · exact ⟨hsrc, hpending⟩
    · obtain ⟨hparams, hsrc', hl, -⟩ := exec_frame hx
      rw [Dutiful, hparams, hsrc', hl]
      exact ⟨hsrc, fun e he => hpending e (hq ▸ List.mem_cons_of_mem _ he)⟩
    · exact ⟨hpending (.present src) (by simp [hq]), fun e he => hpending e (hq ▸ List.mem_cons_of_mem _ he)⟩
  · obtain ⟨-, hparams, hsrc', hl', -⟩ := engineStep_frame he
    rw [Dutiful, hparams, hsrc', hl']
    refine ⟨hsrc, fun e he => ?_⟩
    obtain ⟨-, rfl⟩ | ⟨n, rest, hq, rfl⟩ := hl
    · exact hpending e he
    · obtain rfl | he := List.mem_cons.mp he
      · trivial
      · exact hpending e (hq ▸ List.mem_cons_of_mem _ he)

end

/-! ### The obligations -/

/-- Settles O46, move by move: a transaction, an engine step and an event are each made of updates that keep it. -/
theorem everyStepKeepsTheInvariant : Obligations.EveryStepKeepsTheInvariant :=
  fun _ _ => step_keeps_invariant

/-- Settles O48: a PACK is accepted with current latches, the engine touches neither them nor what they came from,
and everything else leaves the engine idle. -/
theorem latchesStayCurrent : Obligations.LatchesStayCurrent := by
  intro s t hs h
  obtain ⟨n, l, -, -, rfl⟩ | ⟨hp, hidle⟩ | ⟨hp, l, he, -⟩ := step_cases h
  · exact latchesCurrent_of_idle rfl
  · obtain ⟨-, rfl⟩ | ⟨q, l, -, hx⟩ | ⟨src, l, -, rfl⟩ := hidle
    · exact hs
    · exact exec_keeps_latchesCurrent (s := s.setPending l) hp hx
    · exact latchesCurrent_of_idle hp
  · exact engineStep_keeps_latchesCurrent (s := s.setPending l) hs he

/-- Settles O49: the provider's duty gives every pixel-step its byte, and each of the three is kept by the step. -/
theorem dutifulRunsNeverStop : Obligations.DutifulRunsNeverStop := by
  intro s hs hcurrent hdutiful
  obtain ⟨t, ht⟩ := step_next_of_supplied hs hcurrent hdutiful.1
  exact ⟨t, ht, step_keeps_invariant hs ht, latchesStayCurrent s t hcurrent ht, step_keeps_dutiful hdutiful ht⟩

/-- Settles O50: only an engine step could fault, and under the invariant it has a next state or is refused. -/
theorem theInvariantRulesOutEveryFault : Obligations.TheInvariantRulesOutEveryFault := by
  intro s f hs hfault
  obtain ⟨t, ht⟩ | ⟨hp, l, hl⟩ := step_next_or_engine s
  · cases ht.symm.trans hfault
  · rw [hl] at hfault
    obtain ⟨t, ht⟩ | ⟨-, -, hrefused⟩ := engineStep_of_invariant (invariant_setPending hs l) hp
    · cases ht.symm.trans hfault
    · cases hrefused.symm.trans hfault

/-- Settles O52, by what a transaction does to BPP; no other move but power-on reset writes it. -/
theorem depthChangesOnlyByWriteOrReset : Obligations.DepthChangesOnlyByWriteOrReset := by
  intro s t h
  obtain ⟨n, l, hq, hdue, rfl⟩ | ⟨hp, hidle⟩ | ⟨-, l, he, -⟩ := step_cases h
  · exact .inr (.inr (.inr ⟨⟨n, l, hq, hdue⟩, rfl⟩))
  · obtain ⟨-, rfl⟩ | ⟨q, l, hq, hx⟩ | ⟨src, l, -, rfl⟩ := hidle
    · exact .inl rfl
    · obtain hkeep | ⟨v, rfl, hv⟩ | ⟨rfl, hzero⟩ := exec_decode_bpp_cases hx
      · exact .inl hkeep
      · exact .inr (.inl ⟨hp, v, l, hq, hv⟩)
      · exact .inr (.inr (.inl ⟨hp, ⟨l, hq⟩, hzero⟩))
    · exact .inl rfl
  · obtain ⟨hbpp, -⟩ := engineStep_frame he
    exact .inl hbpp

/-- Settles O53: neither a transaction nor the engine writes them, and a reset is of the block alone. -/
theorem parametersAndSourceAreNotTheBlocks : Obligations.ParametersAndSourceAreNotTheBlocks := by
  intro s t h
  obtain ⟨n, l, -, -, rfl⟩ | ⟨hp, hidle⟩ | ⟨-, l, he, -⟩ := step_cases h
  · exact ⟨rfl, .inl rfl⟩
  · obtain ⟨-, rfl⟩ | ⟨q, l, -, hx⟩ | ⟨src, l, hq, rfl⟩ := hidle
    · exact ⟨rfl, .inl rfl⟩
    · obtain ⟨hparams, hsrc, -⟩ := exec_frame hx
      exact ⟨hparams, .inl hsrc⟩
    · exact ⟨rfl, .inr ⟨hp, src, l, hq, rfl⟩⟩
  · obtain ⟨-, hparams, hsrc, -⟩ := engineStep_frame he
    exact ⟨hparams, .inl hsrc⟩

/-- Settles O45: the engine is idle at the start, and the buffer is the empty list of cells. -/
theorem everyRunStartsInTheInvariant : Obligations.EveryRunStartsInTheInvariant := by
  have start : ∀ (p : Config.Params) (script : List Event), p.legal →
      Invariant (State.boot p script) ∧ LatchesCurrent (State.boot p script) := fun p script hp =>
    ⟨⟨hp, bitmapLegal_zero _, (by decide : 0#4 ≤ 5#4), (nomatch ·), fun _ => rfl⟩, latchesCurrent_of_idle rfl⟩
  obtain ⟨hreset, hcurrent⟩ := start Config.Params.default [] (by decide)
  exact ⟨hreset, hcurrent, start⟩

/-- Settles O47: in numbers STATUS is 16 times OOR plus RESULT, and the invariant bounds RESULT. -/
theorem statusReadsOnlyDefinedCodes : Obligations.StatusReadsOnlyDefinedCodes := by
  rintro s ⟨-, -, hresult, -⟩
  have hcode : s.result.toNat ≤ 5 := hresult
  have hstatus : s.status.toNat = s.oor.toNat * 16 + s.result.toNat := by
    rw [State.status, append_toNat, append_toNat, BitVec.toNat_ofBool]
    simp
  have hoor : s.oor.toNat ≤ 1 := Bool.toNat_le s.oor
  exact ⟨s.status, exec_rdStatus s, by omega, by omega⟩

end Sys2Proof.Proofs

/-! PROOFS. 41_pack.md sections 3 and 4: the tile address mapper is one to one onto the positions, strip by strip, and
bounded (rule R89); fields of different positions are apart, and tiles lie word by word (rules R90, R92 and R94). -/
namespace Sys2Proof.Proofs

open Sys2Proof.Machine Sys2Proof.Laws

/-! ### Onto the positions -/

section

variable {w : Nat}

/-- Every position is that of the index the stated inverse gives (rule R89(a)): the index's column and strip give back
`x'`, and its row gives back `y'`. -/
theorem tileAddr_tileIndex (hw : 1 ≤ w) (p : Nat) : tileAddr (tileIndex p w) w = p := by
  have hcol : (8 * (p / 64) + p % 8) % w < w := Nat.mod_lt _ hw
  have hx : pixelX (tileIndex p w) w = (8 * (p / 64) + p % 8) % w := by
    rw [pixelX, tileIndex, Nat.mul_add_mod_self_right, Nat.mod_eq_of_lt hcol]
  have hy : pixelY (tileIndex p w) w = 8 * ((8 * (p / 64) + p % 8) / w) + p / 8 % 8 := by
    rw [pixelY, tileIndex, Nat.mul_comm, Nat.mul_add_div hw, Nat.div_eq_of_lt hcol, Nat.add_zero]
  have hstripY : stripY (tileIndex p w) w = p / 8 % 8 := by
    rw [stripY, hy]
    omega
  have hstrip : (8 * ((8 * (p / 64) + p % 8) / w) + p / 8 % 8) / 8 = (8 * (p / 64) + p % 8) / w := by omega
  have hstripX : stripX (tileIndex p w) w = 8 * (p / 64) + p % 8 := by
    rw [stripX, hx, hy, hstrip, Nat.mod_add_div']
  rw [tileAddr_eq, hstripX, hstripY]
  omega

/-- Where tiles and strips line up, the number of a position's strip is that of its index (rule R89(c)). -/
theorem tileAddr_div_strip (hw : 1 ≤ w) (h8 : 8 ∣ w) (i : Nat) : tileAddr i w / (8 * w) = i / (8 * w) := by
  obtain ⟨c, rfl⟩ := h8
  calc tileAddr i (8 * c) / (8 * (8 * c))
      = tileAddr i (8 * c) / 64 / c := by rw [Nat.div_div_eq_div_mul, ← Nat.mul_assoc]
    _ = stripX i (8 * c) / (8 * c) := by rw [tileAddr_div_sixtyFour, Nat.div_div_eq_div_mul]
    _ = i / (8 * c) / 8 := stripX_div hw i
    _ = i / (8 * (8 * c)) := by rw [Nat.div_div_eq_div_mul, Nat.mul_comm]

/-- The end of a strip by strip numbers. -/
theorem lt_strip_iff (hw : 1 ≤ w) (s n : Nat) : n < 8 * s * w ↔ n / (8 * w) < s := by
  have hpos : 0 < 8 * w := by omega
  rw [Nat.div_lt_iff_lt_mul hpos, Nat.mul_left_comm, Nat.mul_assoc]

theorem mem_strip_iff (hw : 1 ≤ w) (s n : Nat) :
    8 * s * w ≤ n ∧ n < 8 * (s + 1) * w ↔ n / (8 * w) = s := by
  rw [← Nat.not_lt, lt_strip_iff hw, lt_strip_iff hw]
  omega

/-- An index and its position are below the end of the same strip (rule R89(c)). -/
theorem tileAddr_lt_iff (hw : 1 ≤ w) (h8 : 8 ∣ w) {h : Nat} (hh : 8 ∣ h) (i : Nat) :
    tileAddr i w < w * h ↔ i < w * h := by
  obtain ⟨g, rfl⟩ := hh
  rw [Nat.mul_comm w, lt_strip_iff hw, lt_strip_iff hw, tileAddr_div_strip hw h8]

/-- Eight times the strip remap bounds the position, and a strip's indices take up eight rows (rule R89(e)). -/
theorem tileAddr_le (hw : 1 ≤ w) (i : Nat) : tileAddr i w ≤ i + 8 * w + 55 := by
  have hx : stripX i w = i % w + i / w / 8 * w := rfl
  have hy := stripY_lt i w
  have hcol : i % w < w := Nat.mod_lt i hw
  have hrows : 8 * (i / w / 8 * w) ≤ i / w * w := by
    rw [← Nat.mul_assoc]
    exact Nat.mul_le_mul_right w (Nat.mul_div_le _ _)
  have hi : i / w * w + i % w = i := Nat.div_add_mod' i w
  rw [tileAddr_eq]
  omega

end

/-! ### Fields of different positions -/

section

variable {b pos pos' : Nat}

/-- In one word, different positions have different places (rule R91). -/
theorem place_ne_of_ne (hne : pos ≠ pos') (hword : wordIndex pos b = wordIndex pos' b) :
    pos % bpi b ≠ pos' % bpi b := fun hplace =>
  hne (by rw [← wordIndex_add pos b, ← wordIndex_add pos' b, hword, hplace])

theorem fieldShift_add_le_of_place_lt (h : pos % bpi b < pos' % bpi b) :
    fieldShift pos b + b ≤ fieldShift pos' b := by
  rw [fieldShift, fieldShift, ← Nat.succ_mul]
  exact Nat.mul_le_mul_right b h

/-- Fields of different positions share no bit of a word (rule R94(b)). -/
theorem fieldValue_and_eq_zero (hne : pos ≠ pos') (hword : wordIndex pos b = wordIndex pos' b) (v v' : Nat) :
    fieldValue pos b v &&& fieldValue pos' b v' = 0 := by
  refine Nat.eq_of_testBit_eq fun n => ?_
  rw [Nat.testBit_and, Nat.zero_testBit, Bool.and_eq_false_iff, ← Bool.not_eq_true, ← Bool.not_eq_true,
    ← not_and_or]
  rintro ⟨hn, hn'⟩
  have hbit := hn
  simp only [fieldValue_testBit, Bool.and_eq_true, decide_eq_true_eq] at hbit
  obtain ⟨hge, hlt, -⟩ := hbit
  rw [← Nat.add_sub_of_le hge] at hn'
  exact hne (eq_of_fieldValue_testBit hword.symm hlt hn').symm

/-- A tile is `2 * bpp` words (rule R94(c)). -/
theorem bpi_mul_two_depth (hb : legalDepth b = true) : bpi b * (2 * b) = 64 := by
  rw [Nat.mul_left_comm, bpi_mul hb]

end

/-! ### The obligations -/

/-- Settles O29. -/
theorem tileAddrIsInjectiveWithItsInverse : Obligations.TileAddrIsInjectiveWithItsInverse := fun _ hw =>
  ⟨tileIndex_tileAddr hw, fun _ _ => tileAddr_injective hw⟩

/-- Settles O30: an index and its position have the same strip number, and every position is that of an index. -/
theorem stripsMapOntoTheirOwnPositions : Obligations.StripsMapOntoTheirOwnPositions := by
  intro w hw h8
  have hw8 : 8 ≤ w := Nat.le_of_dvd hw h8
  refine ⟨fun x y hx hy => ?first, fun s i hlow hhigh => ?into, fun s p hlow hhigh => ⟨tileIndex p w, ?onto⟩,
    fun h hh => ⟨fun i => (tileAddr_lt_iff hw h8 hh i).mpr, fun p hp => ⟨tileIndex p w, ?whole⟩⟩⟩
  case first =>
    have hcol : pixelX (y * w + x) w = x := by
      rw [pixelX, Nat.mul_add_mod_self_right, Nat.mod_eq_of_lt (by omega)]
    have hrow : pixelY (y * w + x) w = y := by
      rw [pixelY, Nat.mul_comm, Nat.mul_add_div hw, Nat.div_eq_of_lt (by omega), Nat.add_zero]
    rw [tileAddr_eq, stripX, stripY, hcol, hrow, Nat.div_eq_of_lt hy, Nat.zero_mul]
    omega
  case into =>
    rw [mem_strip_iff hw, tileAddr_div_strip hw h8]
    exact (mem_strip_iff hw s i).mp ⟨hlow, hhigh⟩
  case onto =>
    have hstrip := (mem_strip_iff hw s p).mp ⟨hlow, hhigh⟩
    rw [← tileAddr_tileIndex hw p, tileAddr_div_strip hw h8, ← mem_strip_iff hw] at hstrip
    exact ⟨hstrip.1, hstrip.2, tileAddr_tileIndex hw p⟩
  case whole =>
    rw [← tileAddr_lt_iff hw h8 hh, tileAddr_tileIndex hw p]
    exact ⟨hp, rfl⟩

/-- Settles O31. -/
theorem positionsStayBelowTheBound : Obligations.PositionsStayBelowTheBound := by
  intro n w i hw hi
  have h := tileAddr_le hw i
  omega

/-- Settles O34: different positions in one word have different places, one before the other. -/
theorem fieldsOfDifferentPositionsAreDisjoint : Obligations.FieldsOfDifferentPositionsAreDisjoint := by
  intro pos pos' b v v' _ hne hword
  refine ⟨?_, fieldValue_and_eq_zero hne hword v v'⟩
  obtain hlt | hgt := Nat.lt_or_gt_of_ne (place_ne_of_ne hne hword)
  · exact .inl (fieldShift_add_le_of_place_lt hlt)
  · exact .inr (fieldShift_add_le_of_place_lt hgt)

/-- Settles O32, by evaluating the two tables. -/
theorem depthTableValues : Obligations.DepthTableValues :=
  ⟨rfl, rfl⟩

/-- Settles O35: the 64 positions of a tile fill `2 * bpp` words exactly, so whole tiles shift the word index and
leave the place in the word. -/
theorem tilesAreTwoDepthWords : Obligations.TilesAreTwoDepthWords := by
  intro t r c b hb hr hc
  have hlegal := legalDepth_iff_mem.mpr hb
  have htile : 64 * t = bpi b * (2 * b * t) := by rw [← Nat.mul_assoc, bpi_mul_two_depth hlegal]
  refine ⟨?word, ?offset, ?shift⟩
  case word => rw [wordIndex, htile, Nat.mul_add_div (bpi_pos hlegal)]
  case offset =>
    rw [Nat.div_lt_iff_lt_mul (bpi_pos hlegal), Nat.mul_comm (2 * b), bpi_mul_two_depth hlegal]
    omega
  case shift => rw [fieldShift, htile, Nat.mul_add_mod]

end Sys2Proof.Proofs

/-! PROOFS. 41_pack.md sections 5, 6 and 8: what a PACK leaves alone, the order of its pixels, two PACKs one after the
other, and images that fit or are empty (rules R84, R99 and R105). -/
namespace Sys2Proof.Proofs

open Sys2Proof.Machine Sys2Proof.Laws Sys2Proof.Safety

/-! ### Fields that no pixel is sent to -/

section

variable {src : Source} {b n pos j : Nat}

/-- `P(src, bpp)` has no bit in a field that no pixel is sent to (rules R94(b) and R99(a)). -/
theorem packedWord_getLsbD_untargeted (hb : legalDepth b = true) (h : ∀ i, i < n → tileAddr i src.w.toNat ≠ pos)
    (hj : j < b) : (src.packedWord b n (wordIndex pos b)).getLsbD (fieldShift pos b + j) = false := by
  have hfits := fieldShift_add_le hb pos
  rw [← Bool.not_eq_true, packedWord_getLsbD _ _ _ _ (by omega)]
  rintro ⟨i, hi, hword, hbit⟩
  exact h i hi (eq_of_fieldValue_testBit hword hj hbit)

/-- Two buffers read back alike where their words have the same bits in the field. -/
theorem unpack_congr {m m' : Memory}
    (h : ∀ j, j < b → (m.read (wordIndex pos b)).getLsbD (fieldShift pos b + j) =
      (m'.read (wordIndex pos b)).getLsbD (fieldShift pos b + j)) : unpack m pos b = unpack m' pos b := by
  refine Nat.eq_of_testBit_eq fun j => ?_
  rw [unpack_testBit, unpack_testBit]
  by_cases hj : j < b
  · rw [h j hj]
  · simp [hj]

end

/-! ### The order of the pixels -/

section

variable {s : State} {order order' : List Nat}

/-- Merging looks at which pixels there are, not at their order (rule R99(d)). -/
theorem mergeAll_perm (hs : s.bmp.wf) (hw : s.wLat = s.src.w) (h : order.Perm order') :
    (s.mergeAll order).bmp = (s.mergeAll order').bmp ∧ (s.mergeAll order).oorLat = (s.mergeAll order').oorLat := by
  constructor
  · refine memory_ext (mergeAll_wf hs _) (mergeAll_wf hs _) fun k => ?_
    refine BitVec.eq_of_getLsbD_eq fun j hj => Bool.eq_iff_iff.mpr ?_
    have hword := fun l => mergeAll_word_getLsbD l hs hw k hj
    simp only [State.word] at hword
    simp only [hword, h.mem_iff]
  · rw [mergeAll_oorLat hw, mergeAll_oorLat hw, h.any_eq]

end

/-! ### From one PACK to the next -/

section

variable {s t : State} {rest : List Event}

/-- A run that arrives has taken its first step. -/
theorem exists_step_of_run_succ {k : Nat} (h : Host.Core.run core (k + 1) s = .next t) :
    ∃ u, step s = .next u ∧ Host.Core.run core k u = .next t := by
  cases hs : step s with
  | next u => exact ⟨u, rfl, (core_run_succ hs k).symm.trans h⟩
  | fault f => simp [Host.Core.run, show core.step s = .fault f from hs] at h
  | refused r => simp [Host.Core.run, show core.step s = .refused r from hs] at h

theorem run_keeps_invariant {k : Nat} (hs : Invariant s) (h : Host.Core.run core k s = .next t) : Invariant t := by
  induction k generalizing s with
  | zero => cases h; exact hs
  | succ k ih =>
    obtain ⟨u, hu, hrun⟩ := exists_step_of_run_succ h
    exact ih (step_keeps_invariant hs hu) hrun

/-- What the outside world does between two PACKs of TwoPacksOrIntoStaleData: it presents `src` or not, and writes
`d` to BPP or not. -/
abbrev PresentsOrWritesDepth (s : State) (src : Source) (d : Word) (between : List Event) : Prop :=
  (between = [] ∧ src = s.src ∧ d = s.bpp) ∨
  (between = [.present src] ∧ d = s.bpp) ∨
  (between = [.request ⟨.wr, 0x00000002#32, d⟩] ∧ src = s.src) ∨
  between = [.present src, .request ⟨.wr, 0x00000002#32, d⟩] ∨
  between = [.request ⟨.wr, 0x00000002#32, d⟩, .present src]

/-- `t` is `s` with other operands for a PACK and other events to come. -/
structure Reconfigured (s t : State) (src : Source) (d : Word) (events : List Event) : Prop where
  phase : t.phase = s.phase
  bmp : t.bmp = s.bmp
  params : t.params = s.params
  src : t.src = src
  bpp : t.bpp = d
  pending : t.pending = events

theorem run_present {src : Source} {events : List Event} (hp : s.phase = .idle)
    (hq : s.pending = .present src :: events) :
    ∃ t, Host.Core.run core 1 s = .next t ∧ Reconfigured s t src s.bpp events :=
  ⟨_, core_run_succ (step_idle_present hp hq) 0, rfl, rfl, rfl, rfl, rfl, rfl⟩

theorem run_wrBpp {d : Word} {events : List Event} (hp : s.phase = .idle)
    (hq : s.pending = .request ⟨.wr, 0x00000002#32, d⟩ :: events) :
    ∃ t, Host.Core.run core 1 s = .next t ∧ Reconfigured s t s.src d events := by
  have hstep := step_idle_request hp hq
  rw [(decode_eq_wrBpp_iff _ d).mpr rfl] at hstep
  exact ⟨_, core_run_succ hstep 0, rfl, rfl, rfl, rfl, rfl, rfl⟩

/-- The events between the two PACKs leave the buffer alone and set the operands of the second. -/
theorem run_between {src : Source} {d : Word} {between events : List Event} (hp : s.phase = .idle)
    (hbetween : PresentsOrWritesDepth s src d between) (hq : s.pending = between ++ events) :
    ∃ t, Host.Core.run core between.length s = .next t ∧ Reconfigured s t src d events := by
  obtain ⟨rfl, rfl, rfl⟩ | ⟨rfl, rfl⟩ | ⟨rfl, rfl⟩ | rfl | rfl := hbetween
  · exact ⟨s, rfl, rfl, rfl, rfl, rfl, rfl, hq⟩
  · exact run_present hp hq
  · exact run_wrBpp hp hq
  · obtain ⟨t, hrun, ht⟩ := run_present hp hq
    obtain ⟨u, hrun', hu⟩ := run_wrBpp (ht.phase.trans hp) ht.pending
    exact ⟨u, (core_run_add hrun 1).trans hrun', hu.phase.trans ht.phase, hu.bmp.trans ht.bmp,
      hu.params.trans ht.params, hu.src.trans ht.src, hu.bpp, hu.pending⟩
  · obtain ⟨t, hrun, ht⟩ := run_wrBpp hp hq
    obtain ⟨u, hrun', hu⟩ := run_present (ht.phase.trans hp) ht.pending
    exact ⟨u, (core_run_add hrun 1).trans hrun', hu.phase.trans ht.phase, hu.bmp.trans ht.bmp,
      hu.params.trans ht.params, hu.src, hu.bpp.trans ht.bpp, hu.pending⟩

/-- An idle machine with the invariant, whose next transaction is a PACK with operands that pass the checks. -/
theorem packReady_of_operands {src : Source} {d : Word} (hs : Invariant s) (hp : s.phase = .idle)
    (hsrc : s.src = src) (hbpp : s.bpp = d)
    (hq : s.pending = .request ⟨.wr, 0x00000000#32, 0x00000002#32⟩ :: rest) (havailable : src.available = true)
    (hindexed : src.indexed = true) (hdepth : legalDepth d.toNat = true) (hsupplied : Supplied src s.params.capPixels)
    (hrest : NoResetDue rest) : PackReady s rest := by
  subst hsrc hbpp
  exact ⟨hs, hp, packCheck_none_iff.mpr ⟨havailable, hindexed, hdepth⟩, hsupplied, hq, hrest⟩

end

/-! ### Whole tiles, and no pixel at all -/

section

variable {src : Source} {b n bufWords : Nat}

/-- A write is suppressed exactly when some position is beyond the buffer (rule R105). -/
theorem outOfRange_iff (hb : legalDepth b = true) :
    src.outOfRange b n bufWords = true ↔ ∃ i, i < n ∧ bufWords * bpi b ≤ tileAddr i src.w.toNat := by
  have hword (i : Nat) : bufWords ≤ (src.field b i).word ↔ bufWords * bpi b ≤ tileAddr i src.w.toNat :=
    Nat.le_div_iff_mul_le (bpi_pos hb)
  simp [Source.outOfRange, hword]

/-- Whole tiles that fit the buffer have no position beyond it (rules R89(c) and R105). -/
theorem outOfRange_wholeTiles (hb : legalDepth b = true) (hw : 8 ∣ src.w.toNat) (hh : 8 ∣ src.h.toNat)
    (hfits : src.w.toNat * src.h.toNat ≤ bufWords * bpi b) :
    src.outOfRange b (src.w.toNat * src.h.toNat) bufWords = false := by
  rw [← Bool.not_eq_true, outOfRange_iff hb]
  rintro ⟨i, hi, hbeyond⟩
  have hw1 : 1 ≤ src.w.toNat := Nat.pos_of_mul_pos_right (Nat.zero_lt_of_lt hi)
  have hpos := (tileAddr_lt_iff hw1 hw hh i).mpr hi
  omega

theorem pixelCount_empty {s : State} (h : s.src.w = 0#16 ∨ s.src.h = 0#16) : s.pixelCount = 0 := by
  obtain h | h := h <;> simp [State.pixelCount, Source.pixelCount, h]

end

/-! ### The obligations -/

/-- Settles O20, from O18: the words that exist are ORed with `P(src, bpp)`, which is 0 in such a field. -/
theorem fieldsNoPixelTargetsAreKept : Obligations.FieldsNoPixelTargetsAreKept := by
  intro s rest h
  obtain ⟨t, hrun, hwords, -⟩ := packReachesTheOneTransitionState s rest h
  refine ⟨t, hrun, fun pos hpos => unpack_congr fun j hj => ?_⟩
  rw [hwords]
  split_ifs
  · rw [BitVec.getLsbD_or, packedWord_getLsbD_untargeted (legalDepth_of_packReady h) hpos hj, Bool.or_false]
  · rfl

/-- Settles O21: after N engine steps the pixels are merged in the order of their indices. -/
theorem pixelOrderDoesNotMatter : Obligations.PixelOrderDoesNotMatter := by
  intro s rest h
  have hcount := acceptedPack_nLat_toNat s rest
  refine ⟨acceptedPack s rest, afterPixels (acceptedPack s rest) s.pixelCount, step_packReady h,
    (engineReady_acceptedPack h).run_afterPixels hcount.ge, ?_,
    fun order horder => mergeAll_perm (acceptedPack_wf h) rfl horder.symm⟩
  rw [afterPixels_nLat, afterPixels_idx, ← hcount, BitVec.ofNat_toNat, BitVec.setWidth_eq]

/-- Settles O22, from O18 twice: the events between the PACKs give the second its operands and keep the words the
first has left. -/
theorem twoPacksOrIntoStaleData : Obligations.TwoPacksOrIntoStaleData := by
  intro s src d between rest hbetween h havailable hindexed hdepth hsupplied hrest
  obtain ⟨t, hrun, hwords, -, -, -, -, -, -, hpending, -, hphase, -, hbpp, hparams, hsrc⟩ :=
    packReachesTheOneTransitionState s _ h
  have hbetween' : PresentsOrWritesDepth t src d between := by
    rwa [← hsrc, ← hbpp] at hbetween
  obtain ⟨u, hrun', hu⟩ := run_between hphase hbetween' hpending
  have hinvariant : Invariant u := run_keeps_invariant (run_keeps_invariant h.1 hrun) hrun'
  have hsame : u.params = s.params := hu.params.trans hparams
  have hready : PackReady u rest :=
    packReady_of_operands hinvariant (hu.phase.trans hphase) hu.src hu.bpp hu.pending havailable hindexed
      (legalDepth_iff_mem.mpr hdepth) (hsame ▸ hsupplied) hrest
  have hcount : u.pixelCount = src.pixelCount s.params.capPixels := by simp only [State.pixelCount, hu.src, hsame]
  obtain ⟨v, hrun'', hwords', -, -, -, -, -, -, hpending', -, hphase', -, hbpp', -, hsrc'⟩ :=
    packReachesTheOneTransitionState u rest hready
  rw [hcount] at hrun''
  refine ⟨v, ?run, hpending', hphase', hsrc'.trans hu.src, hbpp'.trans hu.bpp, fun k hk => ?_⟩
  case run => rw [core_run_add ((core_run_add hrun _).trans hrun'), hrun'']
  rw [hwords', hsame, if_pos hk, hu.bmp, hwords, if_pos hk, hu.src, hu.bpp, hcount]

/-- Settles O23, from O18 twice: ORing `P(src, bpp)` and `Oor(src, bpp)` in again changes nothing. -/
theorem repackingTheSameSourceChangesNoWord : Obligations.RepackingTheSameSourceChangesNoWord := by
  intro s rest h hrest
  obtain ⟨t, hrun, hwords, hoor, hresult, -, -, -, -, hpending, -, hphase, -, hbpp, hparams, hsrc⟩ :=
    packReachesTheOneTransitionState s _ h
  have hinvariant : Invariant t := run_keeps_invariant h.1 hrun
  obtain ⟨-, -, hcheck, hsupplied, -⟩ := h
  obtain ⟨havailable, hindexed, hdepth⟩ := packCheck_none_iff.mp hcheck
  have hready : PackReady t rest :=
    packReady_of_operands hinvariant hphase hsrc hbpp hpending havailable hindexed hdepth (hparams ▸ hsupplied) hrest
  have hcount : t.pixelCount = s.pixelCount := by simp only [State.pixelCount, hsrc, hparams]
  obtain ⟨u, hrun', hwords', hoor', hresult', -⟩ := packReachesTheOneTransitionState t rest hready
  obtain ⟨-, ⟨hwf, -⟩, -⟩ := run_keeps_invariant hinvariant hrun'
  obtain ⟨-, ⟨hwf', -⟩, -⟩ := hinvariant
  rw [hsrc, hbpp, hparams, hcount] at hoor' hresult'
  refine ⟨t, u, hrun, hcount ▸ hrun', memory_ext hwf hwf' fun k => ?_, hresult'.trans hresult.symm, ?_⟩
  · rw [hwords', hsrc, hbpp, hparams, hcount, hwords]
    split_ifs
    · rw [BitVec.or_assoc, BitVec.or_self]
    · rfl
  · rw [hoor', hoor, Bool.or_assoc, Bool.or_self]

/-- Settles O24, from O18: whole tiles that fit suppress no write, so the completion reports OK. -/
theorem wholeTileImagesThatFitSuppressNothing : Obligations.WholeTileImagesThatFitSuppressNothing := by
  refine ⟨fun src b n bufWords hb => outOfRange_iff (legalDepth_iff_mem.mpr hb),
    fun s rest h hw hh hcapacity hfits => ?_⟩
  have hcount : s.pixelCount = s.src.w.toNat * s.src.h.toNat := Nat.min_eq_left hcapacity
  have hinside := outOfRange_wholeTiles (legalDepth_of_packReady h) hw hh hfits
  obtain ⟨t, hrun, -, hoor, hresult, -, -, -, -, -, -, hphase, -⟩ := packReachesTheOneTransitionState s rest h
  rw [hcount] at hrun hoor hresult
  rw [hinside] at hoor hresult
  exact ⟨t, hrun, hphase, hresult, hoor.trans (Bool.or_false _)⟩

/-- Settles O25: with no pixel the engine completes right after the acceptance, which has cleared the mark. -/
theorem emptyImagesPackNothing : Obligations.EmptyImagesPackNothing := by
  intro s rest h hempty
  have hrun := run_packReady h
  rw [pixelCount_empty hempty, afterPixels_zero rfl] at hrun
  refine ⟨_, hrun, rfl, rfl, rfl, ?_, rfl⟩
  exact Bool.or_false s.oor

end Sys2Proof.Proofs

/-! PROOFS. 30_encoding.md: encoding and decoding are inverse, and the match and mask rows agree with the decoder (rules
R51 to R57 and R61). -/
namespace Sys2Proof.Proofs

open Sys2Proof.Laws

/-! ### The families together -/

theorem roundTrip (i : Instr) : RoundTrip.Statement i := by
  cases i with
  | wrCmd c => exact RoundTrip.wrCmd c
  | rdStatus => exact RoundTrip.rdStatus
  | rdBpp => exact RoundTrip.rdBpp
  | wrBpp v => exact RoundTrip.wrBpp v
  | rdBmp k => exact RoundTrip.rdBmp k
  | wrBmp k v => exact RoundTrip.wrBmp k v
  | err dir a v => exact RoundTrip.err dir a v
  | clear => exact RoundTrip.clear
  | pack => exact RoundTrip.pack
  | reset => exact RoundTrip.reset
  | illegal c => exact RoundTrip.illegal c

theorem encodedRow (i : Instr) : EncodedRow.Statement i := by
  cases i with
  | wrCmd c => exact EncodedRow.wrCmd c
  | rdStatus => exact EncodedRow.rdStatus
  | rdBpp => exact EncodedRow.rdBpp
  | wrBpp v => exact EncodedRow.wrBpp v
  | rdBmp k => exact EncodedRow.rdBmp k
  | wrBmp k v => exact EncodedRow.wrBmp k v
  | err dir a v => exact EncodedRow.err dir a v
  | clear => exact EncodedRow.clear
  | pack => exact EncodedRow.pack
  | reset => exact EncodedRow.reset
  | illegal c => exact EncodedRow.illegal c

/-- The row that takes an encoded operation's request is its own (30_encoding.md rule R61). -/
theorem rowOf_of_encode_formatH {i : Instr} {q : BitVec 65} (hwf : i.wellFormed = true)
    (h : encode i = .formatH q) : rowOf rowsH "ERR" q = i.mnemonic := by
  have hrow := encodedRow i hwf
  rwa [h] at hrow

theorem rowOf_of_encode_formatC {i : Instr} {c : Word} (hwf : i.wellFormed = true)
    (h : encode i = .formatC c) : rowOf rowsC "ILLEGAL" c = i.mnemonic := by
  have hrow := encodedRow i hwf
  rwa [h] at hrow

/-! ### From a request to its operation and back -/

/-- The decoder keeps everything of a request but the data of a RD (30_encoding.md rule R51). -/
theorem requestOf_decode (q : Request) :
    requestOf (decode q) = { q with wdata := keptData q.rw q.wdata } := by
  obtain ⟨dir, a, v⟩ := q
  cases dir with
  | rd =>
    simp only [decode]
    split_ifs with hstatus hbpp hwindow
    · rw [hstatus]; rfl
    · rw [hbpp]; rfl
    · rw [requestOf, windowAddr_windowIndex hwindow]; rfl
    · rfl
  | wr =>
    simp only [decode]
    split_ifs with hcmd hbpp hwindow
    · rw [hcmd]; rfl
    · rw [hbpp]; rfl
    · rw [requestOf, windowAddr_windowIndex hwindow]; rfl
    · rfl

theorem requestOf_decode_wr {q : Request} (h : q.rw = .wr) : requestOf (decode q) = q := by
  obtain ⟨dir, a, v⟩ := q
  cases h
  exact requestOf_decode ⟨.wr, a, v⟩

/-- What a request decodes to is of format H. -/
theorem encode_decode (q : Request) : encode (decode q) = .formatH (serialise (requestOf (decode q))) := by
  cases hi : decode q with
  | clear => exact absurd hi (decode_ne_command q .clear)
  | pack => exact absurd hi (decode_ne_command q .pack)
  | reset => exact absurd hi (decode_ne_command q .reset)
  | illegal c => exact absurd hi (decode_ne_command q (.illegal c))
  | wrCmd | rdStatus | rdBpp | wrBpp | rdBmp | wrBmp | err => rfl

/-- A request that no row with a mask takes is unmapped (30_encoding.md rule R57). -/
theorem unmappedPair_of_no_row {dir : Rw} {a : Word} (hwindow : ¬ inWindow a = true) (hbpp : a ≠ bppAddr)
    (hstatus : dir = .rd → a ≠ statusAddr) (hcmd : dir = .wr → a ≠ cmdAddr) : unmappedPair dir a = true := by
  rw [inWindow_iff] at hwindow
  have hcases : 3 ≤ a.toNat ∨ a = cmdAddr ∨ a = statusAddr ∨ a = bppAddr := by
    simp only [← BitVec.toNat_inj, cmdAddr, statusAddr, bppAddr, BitVec.toNat_ofNat]
    omega
  obtain h3 | rfl | rfl | rfl := hcases
  · have hbelow : a.toNat < 0x80000000 := by omega
    simp [unmappedPair, h3, hbelow]
  · cases dir with
    | rd => rfl
    | wr => exact absurd rfl (hcmd rfl)
  · cases dir with
    | rd => exact absurd rfl (hstatus rfl)
    | wr => rfl
  · exact absurd rfl hbpp

theorem decode_wellFormed (q : Request) : (decode q).wellFormed = true := by
  obtain ⟨dir, a, v⟩ := q
  cases dir with
  | rd =>
    simp only [decode]
    split_ifs with hstatus hbpp hwindow
    · rfl
    · rfl
    · rfl
    · have hunmapped := unmappedPair_of_no_row (dir := .rd) hwindow hbpp (fun _ => hstatus) nofun
      rw [Instr.wellFormed, hunmapped]
      rfl
  | wr =>
    simp only [decode]
    split_ifs with hcmd hbpp hwindow
    · rfl
    · rfl
    · rfl
    · have hunmapped := unmappedPair_of_no_row (dir := .wr) hwindow hbpp nofun (fun _ => hcmd)
      rw [Instr.wellFormed, hunmapped]
      rfl

/-! ### From a command word to its operation and back -/

theorem command_word_cases (c : Word) :
    c = 0x00000001#32 ∨ c = 0x00000002#32 ∨ c = 0x00000003#32 ∨ unassignedCommand c = true := by
  simp only [unassignedCommand, Bool.and_eq_true, bne_iff_ne]
  tauto

/-- A command word's operation is well formed and encoded by the word. -/
theorem decodeBits_formatC_inverse (c : Word) :
    (decodeBits (.formatC c)).wellFormed = true ∧ encode (decodeBits (.formatC c)) = .formatC c := by
  obtain rfl | rfl | rfl | hc := command_word_cases c
  · decide
  · decide
  · decide
  · have hdecode : decodeBits (.formatC c) = .illegal c := RoundTrip.illegal c hc
    rw [hdecode]
    exact ⟨hc, rfl⟩

/-! ### The rows -/

/-- The rows of format H look at the direction and the address alone (30_encoding.md rule R61). -/
theorem rowOf_rowsH_ignores_data {q q' : Request} (hrw : q.rw = q'.rw) (haddr : q.addr = q'.addr) :
    rowOf rowsH "ERR" (serialise q) = rowOf rowsH "ERR" (serialise q') := by
  obtain ⟨h32, h63⟩ := serialise_div q
  obtain ⟨h32', h63'⟩ := serialise_div q'
  rw [rowOf_rowsH, rowOf_rowsH, h32, h63, h32', h63', hrw, haddr]

/-- Two rows that take the same bits agree where both masks fix a bit. -/
theorem patterns_agree_of_takes {w : Nat} {r r' : TableRow w} {q : BitVec w} (h : r.takes q = true)
    (h' : r'.takes q = true) : r.pattern &&& r'.mask = r'.pattern &&& r.mask := by
  rw [TableRow.takes, beq_iff_eq] at h h'
  rw [← h, ← h', BitVec.and_assoc, BitVec.and_assoc, BitVec.and_comm r.mask]

/-- No two rows of format H have compatible patterns. -/
theorem rowsH_apart : ∀ r ∈ rowsH, ∀ r' ∈ rowsH, r.pattern &&& r'.mask = r'.pattern &&& r.mask → r = r' := by
  decide

/-! ### The obligations -/

/-- Settles O36, row by row of the opcode table. -/
theorem decodeInvertsEncode : Obligations.DecodeInvertsEncode := roundTrip

/-- Settles O37: a request comes back from its operation but for a RD's data, and a command word comes back whole. -/
theorem encodeInvertsDecode : Obligations.EncodeInvertsDecode := by
  refine ⟨fun q hq => ?write, fun q hq => ?read, fun c => (decodeBits_formatC_inverse c).2, fun b => ?wellFormed⟩
  case write => rw [encode_decode, requestOf_decode_wr hq]
  case read => rw [encode_decode, requestOf_decode, hq, keptData]
  case wellFormed =>
    cases b with
    | formatH q => exact decode_wellFormed (deserialise q)
    | formatC c => exact (decodeBits_formatC_inverse c).1

/-- Settles O38: what is decoded is encoded by bits that its own row takes, and the bits it was decoded from differ
from them in the data of a RD at most. -/
theorem matchAndMaskAgreeWithTheDecoder : Obligations.MatchAndMaskAgreeWithTheDecoder := by
  refine ⟨fun q => ?requests, fun c => ?commands, fun q r hr r' hr' h h' =>
    rowsH_apart r hr r' hr' (patterns_agree_of_takes h h')⟩
  case requests =>
    have hdata := rowOf_rowsH_ignores_data (q := deserialise q) (q' := requestOf (decode (deserialise q)))
      (by rw [requestOf_decode]) (by rw [requestOf_decode])
    rw [serialise_deserialise] at hdata
    exact hdata.trans (rowOf_of_encode_formatH (decode_wellFormed _) (encode_decode _))
  case commands =>
    obtain ⟨hwf, hencode⟩ := decodeBits_formatC_inverse c
    exact rowOf_of_encode_formatC hwf hencode

/-- Settles O39, by decoding each of the twelve words. -/
theorem specWordsDecode : Obligations.SpecWordsDecode := by
  unfold Obligations.SpecWordsDecode
  decide

end Sys2Proof.Proofs

/-! PROOFS. 40_host_access.md, 41_pack.md sections 2, 5 and 7, and 70_reset_and_hazards.md section 1: which requests get
ERR (rule R77), what WR.CMD does (rule R71), what PACK's steps read and write (rules R83, R97 and R102), and what a step
runs (rules R70 and R142). -/
namespace Sys2Proof.Proofs

open Sys2Proof.Machine Sys2Proof.Laws Sys2Proof.Safety

/-! ### What a transaction answers -/

section

variable {s t : State}

/-- A command word is always answered OK (30_encoding.md rule R53). -/
theorem exec_command_answers_done (c : Command) (s : State) :
    ∃ t, exec c.toInstr s = .next t ∧ t.responses = s.responses ++ [.done] := by
  cases c with
  | clear => exact ⟨_, exec_clear s, rfl⟩
  | pack =>
    cases hk : s.packCheck with
    | none => exact ⟨_, exec_pack_accepts hk, rfl⟩
    | some code => exact ⟨_, exec_pack_raises hk, rfl⟩
  | reset => exact ⟨_, exec_reset s, rfl⟩
  | illegal c => exact ⟨_, exec_illegal c s, rfl⟩

/-- The operations that are answered ERR in a block of `bufWords` words (40_host_access.md rules R75 to R77). -/
def answersErr (bufWords : Nat) : Instr → Prop
  | .err _ _ _ => True
  | .rdBmp k => bufWords ≤ k.toNat
  | .wrBmp k _ => bufWords ≤ k.toNat
  | .wrCmd _ | .rdStatus | .rdBpp | .wrBpp _ | .clear | .pack | .reset | .illegal _ => False

/-- What answers ERR changes nothing else (60_exceptions.md rule R127). -/
theorem respond_err_frame (h : t = s.respond .err) : { t with responses := s.responses } = s := by
  rw [h]
  rfl

/-- Every format-H operation gives one response, and says by it whether it was permitted. -/
theorem exec_answers (i : Instr) (hi : ∀ c : Command, i ≠ c.toInstr) (s : State) :
    ∃ t r, exec i s = .next t ∧ t.responses = s.responses ++ [r] ∧
      (r = .err ↔ answersErr s.params.bufWords i) ∧ (r = .err → { t with responses := s.responses } = s) := by
  cases i with
  | wrCmd c =>
    obtain ⟨t, ht, hdone⟩ := exec_command_answers_done (decodeCommand c) s
    exact ⟨t, .done, (exec_wrCmd c s).trans ht, hdone, by simp [answersErr], nofun⟩
  | rdStatus => exact ⟨_, _, exec_rdStatus s, rfl, by simp [answersErr], nofun⟩
  | rdBpp => exact ⟨_, _, exec_rdBpp s, rfl, by simp [answersErr], nofun⟩
  | wrBpp v => exact ⟨_, .done, exec_wrBpp v s, rfl, by simp [answersErr], nofun⟩
  | rdBmp k =>
    refine ⟨_, _, exec_rdBmp k s, rfl, ?_, fun h => respond_err_frame (congrArg s.respond h)⟩
    by_cases hk : k.toNat < s.params.bufWords
    · simp [answersErr, hk]
    · simp [answersErr, hk, Nat.le_of_not_lt hk]
  | wrBmp k v =>
    have h := exec_wrBmp k v s
    split_ifs at h with hk
    · exact ⟨_, .done, h, rfl, by simp [answersErr, hk], nofun⟩
    · exact ⟨_, .err, h, rfl, by simpa [answersErr] using hk, fun _ => respond_err_frame rfl⟩
  | err dir a v => exact ⟨_, .err, exec_err dir a v s, rfl, by simp [answersErr], fun _ => respond_err_frame rfl⟩
  | clear => exact absurd rfl (hi .clear)
  | pack => exact absurd rfl (hi .pack)
  | reset => exact absurd rfl (hi .reset)
  | illegal c => exact absurd rfl (hi (.illegal c))

/-- The address map, from the outside (20_memory.md rule R35; 30_encoding.md rule R57). -/
theorem answersErr_decode_iff (bufWords : Nat) (q : Request) :
    answersErr bufWords (decode q) ↔
      (q.rw = .rd ∧ q.addr = 0x00000000#32) ∨ (q.rw = .wr ∧ q.addr = 0x00000001#32) ∨
      (0x00000003 ≤ q.addr.toNat ∧ q.addr.toNat ≤ 0x7FFFFFFF) ∨ 0x80000000 + bufWords ≤ q.addr.toNat := by
  obtain ⟨dir, a, v⟩ := q
  have ha := a.isLt
  cases dir with
  | rd =>
    simp only [decode, statusAddr, bppAddr, inWindow_iff, ← BitVec.toNat_inj, BitVec.toNat_ofNat]
    split_ifs <;> simp only [answersErr, windowIndex_toNat, true_and, false_and, false_or, false_iff, true_iff] <;> omega
  | wr =>
    simp only [decode, cmdAddr, bppAddr, inWindow_iff, ← BitVec.toNat_inj, BitVec.toNat_ofNat]
    split_ifs <;> simp only [answersErr, windowIndex_toNat, true_and, false_and, false_or, false_iff, true_iff] <;> omega

end

/-! ### STATUS through a transaction -/

/-- Only a command writes STATUS or starts the engine (42_clear_reset.md rule R113). -/
theorem exec_decode_keeps_status {s : State} {q : Request}
    (hq : ¬ (q.rw = .wr ∧ q.addr = 0x00000000#32)) :
    ∃ t, exec (decode q) s = .next t ∧ t.status = s.status ∧ t.phase = s.phase := by
  obtain ⟨c, rfl, -⟩ | ⟨t, ht, haccess⟩ := exec_decode_cases q s
  · exact absurd ⟨rfl, rfl⟩ hq
  · refine ⟨t, ht, ?_⟩
    obtain ⟨r, rfl⟩ | ⟨v, -, rfl⟩ | ⟨k, v, rfl⟩ := haccess
    · exact ⟨rfl, rfl⟩
    · exact ⟨rfl, rfl⟩
    · exact ⟨rfl, rfl⟩

/-! ### The engine step next to an update it does not look at -/

/-- An outcome with its next state, if there is one, updated. -/
def mapNext (f : State → State) : Host.Outcome State Fault Refusal → Host.Outcome State Fault Refusal
  | .next t => .next (f t)
  | .fault r => .fault r
  | .refused r => .refused r

section

variable {s : State} {f : State → State}

/-- The engine's step commutes with an update of what it does not look at. -/
theorem engineStep_update (hidx : (f s).idx = s.idx) (hnLat : (f s).nLat = s.nLat)
    (hdiv : (f s).divisible = s.divisible)
    (hbyte : s.idx < s.nLat → (f s).src.byte? s.idx.toNat = s.src.byte? s.idx.toNat)
    (hpixel : ∀ i v, ((f s).mergePixel i v).advance = f (s.mergePixel i v).advance)
    (hcomplete : (f s).complete = f s.complete) : engineStep (f s) = mapNext f (engineStep s) := by
  unfold engineStep pixelStep
  rw [hidx, hnLat, hdiv, hcomplete]
  split_ifs with hlt hzero heq
  · rfl
  · rw [hbyte hlt]
    cases s.src.byte? s.idx.toNat with
    | none => rfl
    | some v => exact congrArg Host.Outcome.next (hpixel _ v)
  · rfl
  · rfl

/-- The state with other events to come and other answers given: the host's side of the port. -/
def withRecord (events : List Event) (past : List Response) (s : State) : State :=
  { s with pending := events, responses := past }

/-- The state with other source bytes. -/
def withBytes (bytes : List Byte) (s : State) : State := { s with src := { s.src with bytes := bytes } }

theorem mergeField_withRecord (events : List Event) (past : List Response) (s : State) (p : PixelField) :
    (withRecord events past s).mergeField p = withRecord events past (s.mergeField p) := by
  by_cases hp : p.word < s.params.bufWords
  · rw [mergeField_below hp]
    exact mergeField_below (s := withRecord events past s) hp
  · rw [mergeField_beyond (Nat.le_of_not_lt hp)]
    exact mergeField_beyond (s := withRecord events past s) (Nat.le_of_not_lt hp)

theorem mergeField_withBytes (bytes : List Byte) (s : State) (p : PixelField) :
    (withBytes bytes s).mergeField p = withBytes bytes (s.mergeField p) := by
  by_cases hp : p.word < s.params.bufWords
  · rw [mergeField_below hp]
    exact mergeField_below (s := withBytes bytes s) hp
  · rw [mergeField_beyond (Nat.le_of_not_lt hp)]
    exact mergeField_beyond (s := withBytes bytes s) (Nat.le_of_not_lt hp)

/-- The engine does not look at the host's side of the port (41_pack.md rule R102). -/
theorem engineStep_withRecord (events : List Event) (past : List Response) (s : State) :
    engineStep (withRecord events past s) = mapNext (withRecord events past) (engineStep s) :=
  engineStep_update rfl rfl rfl (fun _ => rfl)
    (fun _ _ => congrArg State.advance (mergeField_withRecord events past s _)) rfl

/-- The engine reads no byte at or beyond N (20_memory.md rule R32). -/
theorem engineStep_withBytes {bytes : List Byte} (h : ∀ i, i < s.nLat.toNat → bytes[i]? = s.src.bytes[i]?) :
    engineStep (withBytes bytes s) = mapNext (withBytes bytes) (engineStep s) :=
  engineStep_update rfl rfl rfl (fun hlt => congrArg (Option.map BitVec.toNat) (h _ hlt))
    (fun _ _ => congrArg State.advance (mergeField_withBytes bytes s _)) rfl

end

/-! ### PACK next to the host's side of the port, and the bits it keeps -/

section

variable {s t : State}

/-- Accepting or failing a PACK (41_pack.md rule R102): it writes nothing outside the block but its response, and does
not look at the host's side of the port. -/
theorem exec_pack_frame (s : State) (events : List Event) (past : List Response) :
    ∃ t, exec .pack s = .next t ∧
      (t.bmp = s.bmp ∧ t.bpp = s.bpp ∧ t.params = s.params ∧ t.src = s.src ∧ t.pending = s.pending ∧
        t.responses = s.responses ++ [.done]) ∧
      exec .pack (withRecord events past s) = .next (withRecord events (past ++ [.done]) t) := by
  cases hk : s.packCheck with
  | none =>
    exact ⟨_, exec_pack_accepts hk, ⟨rfl, rfl, rfl, rfl, rfl, rfl⟩,
      exec_pack_accepts (s := withRecord events past s) hk⟩
  | some code =>
    exact ⟨_, exec_pack_raises hk, ⟨rfl, rfl, rfl, rfl, rfl, rfl⟩,
      exec_pack_raises (s := withRecord events past s) hk⟩

theorem mergeField_keeps_bits (hs : s.bmp.wf) (p : PixelField) (k : Nat) :
    s.word k &&& (s.mergeField p).word k = s.word k := by
  rw [mergeField_word hs]
  split_ifs
  · refine BitVec.eq_of_getLsbD_eq fun j _ => ?_
    rw [BitVec.getLsbD_and, BitVec.getLsbD_or, Bool.and_eq_left_iff_imp, Bool.or_eq_true]
    exact Or.inl
  · rw [BitVec.and_self]

/-- No step of the engine clears a bit (41_pack.md rule R102). -/
theorem engineStep_keeps_bits (hs : s.bmp.wf) (h : engineStep s = .next t) (k : Nat) :
    s.bmp.read k &&& t.bmp.read k = s.bmp.read k := by
  obtain ⟨-, -, v, -, rfl⟩ | ⟨-, rfl⟩ := engineStep_cases h
  · exact mergeField_keeps_bits hs _ k
  · exact BitVec.and_self

end

/-! ### A table word placed for the next step -/

/-- The request that carries an instruction's bits does what the bits stand for (40_host_access.md rule R71). -/
theorem exec_decode_carrier (b : Bits) (s : State) : exec (decode (carrier b)) s = exec (decodeBits b) s := by
  cases b with
  | formatH q => rfl
  | formatC c =>
    rw [carrier, decode_wr_cmdAddr]
    exact exec_wrCmd c s

/-- A table word that is some instruction's bits is carried by their request. -/
theorem carrier_of_decodeTableWord {nbits w : Nat} {i : Instr} (h : decodeTableWord nbits w = some i) :
    ∃ b, tableRequest nbits w = carrier b ∧ decodeBits b = i := by
  unfold decodeTableWord readTableWord at h
  unfold tableRequest
  split_ifs at h ⊢
  · exact ⟨_, rfl, Option.some.inj h⟩
  · exact ⟨_, rfl, Option.some.inj h⟩

/-! ### The obligations -/

/-- Settles O6: the response says whether the operation was permitted, and the address decides the operation. -/
theorem onlyRequestsOutsideTheMapGetErr : Obligations.OnlyRequestsOutsideTheMapGetErr := by
  refine ⟨exec_err, fun q s => ?_⟩
  obtain ⟨t, r, ht, hr, herr, hframe⟩ := exec_answers (decode q) (decode_ne_command q) s
  exact ⟨t, r, ht, hr, herr.trans (answersErr_decode_iff _ q), hframe⟩

/-- Settles O9. -/
theorem onlyCommandsWriteStatus : Obligations.OnlyCommandsWriteStatus :=
  fun _ _ => exec_decode_keeps_status

/-- Settles O17: neither PACK's own step nor the engine's looks at or writes what is outside the block but the source
port, and merging a field only ORs. -/
theorem packNeverClearsABit : Obligations.PackNeverClearsABit := by
  refine ⟨fun s t h => ?_, fun s t hs h => ⟨engineStep_keeps_bits hs h, engineStep_frame h⟩,
    fun s events past => ⟨?pack, fun t h => ?next, fun f h => ?fault, fun r h => ?refused⟩⟩
  · obtain ⟨t', ht', hframe, -⟩ := exec_pack_frame s s.pending s.responses
    cases h.symm.trans ht'
    exact hframe
  case pack =>
    obtain ⟨t, ht, -, hrecord⟩ := exec_pack_frame s events past
    exact ⟨t, ht, hrecord⟩
  case next | fault | refused =>
    have hrecord := engineStep_withRecord events past s
    rw [h] at hrecord
    exact hrecord

/-- Settles O26: a pixel-step reads the byte at idx, which is below N, and N is a minimum of W * H. -/
theorem unreadSourceBytesDoNotMatter : Obligations.UnreadSourceBytesDoNotMatter := by
  refine ⟨fun s bytes hbytes t h => ?_, fun s hcurrent hp => ?_⟩
  · have hreplaced := engineStep_withBytes hbytes
    rw [h] at hreplaced
    exact hreplaced
  · obtain ⟨-, -, -, -, hcount⟩ := hcurrent hp
    exact hcount.trans_le (Nat.min_le_left _ _)

/-- Settles O7, command word by command word. -/
theorem wrCmdDoesTheCommandItCarries : Obligations.WrCmdDoesTheCommandItCarries := by
  refine ⟨decode_wr_cmdAddr, exec_wrCmd_of_decodeBits (RoundTrip.clear rfl),
    exec_wrCmd_of_decodeBits (RoundTrip.pack rfl), exec_wrCmd_of_decodeBits (RoundTrip.reset rfl),
    fun c s h1 h2 h3 => exec_wrCmd_of_decodeBits (RoundTrip.illegal c (unassignedCommand_of_ne h1 h2 h3)) s,
    fun c s => ?_⟩
  rw [exec_wrCmd]
  exact exec_command_answers_done _ s

/-- Settles O14: acceptance is the update of the six fields of the engine, and each latch holds its operand whole. -/
theorem packAcceptanceLatchesItsOperands : Obligations.PackAcceptanceLatchesItsOperands := by
  intro s havailable hindexed hb
  have hdepth := legalDepth_iff_mem.mpr hb
  exact ⟨_, exec_pack_accepts (packCheck_none_iff.mpr ⟨havailable, hindexed, hdepth⟩), rfl,
    accept_bppLat_toNat hdepth, accept_nLat_toNat s, rfl, rfl, rfl, rfl, rfl⟩

/-- Settles O16, by the mark: with it the code is 5, without it 0. -/
theorem completionReportsAndIdles : Obligations.CompletionReportsAndIdles := by
  intro s h
  rw [engineStep_complete h, State.complete, completionCode, stickyOor]
  cases s.oorLat with
  | true => rfl
  | false => rfl

/-- Settles O41: the idle machine executes the next transaction, and the placed one is the next. -/
theorem stepRunsTheDecodedInstruction : Obligations.StepRunsTheDecodedInstruction := by
  refine ⟨fun s q rest => step_idle_request, fun s nbits w i h => ?_⟩
  obtain ⟨b, hb, rfl⟩ := carrier_of_decodeTableWord h
  rw [State.withFetchWord, hb, step_idle_request rfl rfl, exec_decode_carrier]
  rfl

/-- Settles O43: a power-on reset that is due is the block reset, which writes every field but the parameters and the
ports; one that is not due leaves the step to the engine. -/
theorem powerOnResetAtAnyTime : Obligations.PowerOnResetAtAnyTime :=
  ⟨fun _ _ _ hp hq => step_idle_powerOn hp hq, fun _ _ hp hq => step_packing_powerOn_zero hp hq,
    fun _ _ _ hp hq => step_packing_powerOn_succ hp hq⟩

end Sys2Proof.Proofs

/-! PROOFS. 40_host_access.md section 1 and 70_reset_and_hazards.md sections 4 and 5: a held transaction waits for the
PACK to end (rules R70 and R96), every dutiful run ends with its responses, and the engine's hidden registers are
unobservable (rule R153). -/
namespace Sys2Proof.Proofs

open Sys2Proof.Machine Sys2Proof.Laws Sys2Proof.Safety

/-! ### A PACK under way -/

/-- A PACK under way, at any pixel, with all it needs to go on, and no power-on reset next. -/
structure PackUnderWay (s : State) : Prop where
  invariant : Invariant s
  latches : LatchesCurrent s
  supplied : Supplied s.src s.params.capPixels
  phase : s.phase = .packing
  pending : NoResetDue s.pending

section

variable {s : State}

theorem PackUnderWay.step_eq (h : PackUnderWay s) : step s = engineStep s :=
  step_packing_engine h.phase h.pending

/-- While a pixel is left the step is its pixel-step (41_pack.md rule R96). -/
theorem PackUnderWay.step_pixel (h : PackUnderWay s) (hlt : s.idx < s.nLat) :
    step s = .next (s.mergePixel s.idx.toNat (s.src.byte s.idx.toNat)).advance := by
  rw [h.step_eq]
  exact engineStep_pixel hlt (divisible_of_invariant h.invariant h.phase hlt)
    (byte?_of_supplied h.latches h.supplied h.phase hlt)

theorem PackUnderWay.after_pixel (h : PackUnderWay s) (hlt : s.idx < s.nLat) :
    PackUnderWay (s.mergePixel s.idx.toNat (s.src.byte s.idx.toNat)).advance where
  invariant := step_keeps_invariant h.invariant (h.step_pixel hlt)
  latches := latchesStayCurrent _ _ h.latches (h.step_pixel hlt)
  supplied := by simpa using h.supplied
  phase := by simpa using h.phase
  pending := by simpa using h.pending

/-- As many steps as there are pixels left at most process as many pixels, and leave the host's side alone. -/
theorem PackUnderWay.run_pixels (h : PackUnderWay s) {j : Nat} (hj : j ≤ s.nLat.toNat - s.idx.toNat) :
    ∃ u : State, Host.Core.run core j s = .next u ∧ PackUnderWay u ∧ u.idx.toNat = s.idx.toNat + j ∧ u.nLat = s.nLat ∧
      u.pending = s.pending ∧ u.responses = s.responses := by
  induction j with
  | zero => exact ⟨s, rfl, h, rfl, rfl, rfl, rfl⟩
  | succ j ih =>
    obtain ⟨u, hrun, hu, hidx, hnLat, hpending, hresponses⟩ := ih (by omega)
    have hlt : u.idx < u.nLat := by
      rw [BitVec.lt_def, hidx, hnLat]
      omega
    refine ⟨_, (core_run_add hrun 1).trans (core_run_succ (hu.step_pixel hlt) 0), hu.after_pixel hlt, ?_, ?_, ?_, ?_⟩
    · rw [advance_idx, mergePixel_idx, idx_succ_toNat hlt, hidx, Nat.add_assoc]
    · simpa using hnLat
    · simpa using hpending
    · simpa using hresponses

/-- With no pixel left the step is the completion (41_pack.md rule R97). -/
theorem PackUnderWay.step_complete (h : PackUnderWay s) (heq : s.idx = s.nLat) : step s = .next s.complete := by
  rw [h.step_eq]
  exact engineStep_complete heq

theorem PackUnderWay.idx_le (h : PackUnderWay s) : s.idx.toNat ≤ s.nLat.toNat := by
  obtain ⟨-, -, -, hpacking, -⟩ := h.invariant
  obtain ⟨-, hle, -⟩ := hpacking h.phase
  exact hle

end

/-! ### What is left to do -/

/-- The engine steps a running PACK still takes. -/
def engineLeft (s : State) : Nat :=
  match s.phase with
  | .idle => 0
  | .packing => s.nLat.toNat - s.idx.toNat + 1

/-- An upper bound of the steps to the end of the run: an event may start a PACK, and a PACK takes fewer than 2^33
steps. -/
def workLeft (s : State) : Nat := s.pending.length * 2 ^ 33 + engineLeft s

/-- The responses given and those still owed (rule R153). -/
def responsesInAll (s : State) : Nat := s.responses.length + (s.pending.filter isRequest).length

section

variable {s t : State}

theorem engineLeft_idle (h : s.phase = .idle) : engineLeft s = 0 := by
  rw [engineLeft, h]

theorem engineLeft_packing (h : s.phase = .packing) : engineLeft s = s.nLat.toNat - s.idx.toNat + 1 := by
  rw [engineLeft, h]

theorem engineLeft_lt (s : State) : engineLeft s < 2 ^ 33 := by
  have hn := s.nLat.isLt
  cases hp : s.phase with
  | idle => rw [engineLeft_idle hp]; omega
  | packing => rw [engineLeft_packing hp]; omega

/-- Each engine step is one fewer. -/
theorem engineStep_engineLeft (hp : s.phase = .packing) (h : engineStep s = .next t) :
    engineLeft t < engineLeft s := by
  obtain ⟨hlt, -, v, -, rfl⟩ | ⟨-, rfl⟩ := engineStep_cases h
  · have hlt' : s.idx.toNat < s.nLat.toNat := hlt
    rw [engineLeft_packing hp, engineLeft_packing (by simpa using hp), advance_idx, advance_nLat, mergePixel_idx,
      mergePixel_nLat, idx_succ_toNat hlt]
    omega
  · rw [engineLeft_packing hp, engineLeft_idle rfl]
    omega

theorem workLeft_lt_of_event_taken {e : Event} (h : s.pending = e :: t.pending) : workLeft t < workLeft s := by
  have ht := engineLeft_lt t
  rw [workLeft, workLeft, h, List.length_cons]
  omega

theorem workLeft_lt_of_engineLeft_lt (h : t.pending.length = s.pending.length) (hlt : engineLeft t < engineLeft s) :
    workLeft t < workLeft s := by
  rw [workLeft, workLeft, h]
  omega

/-- Every step of a run that has not ended leaves less to do. -/
theorem step_workLeft_lt (hs : ¬ Ended s) (h : step s = .next t) : workLeft t < workLeft s := by
  obtain ⟨n, l, hq, -, rfl⟩ | ⟨hp, hidle⟩ | ⟨hp, l, he, hl⟩ := step_cases h
  · exact workLeft_lt_of_event_taken hq
  · obtain ⟨hq, -⟩ | ⟨q, l, hq, hx⟩ | ⟨src, l, hq, rfl⟩ := hidle
    · exact absurd ⟨hq, hp⟩ hs
    · obtain ⟨-, -, hl, -⟩ := exec_frame hx
      exact workLeft_lt_of_event_taken (hq.trans (congrArg _ hl.symm))
    · exact workLeft_lt_of_event_taken hq
  · obtain ⟨-, -, -, hl', -⟩ := engineStep_frame he
    refine workLeft_lt_of_engineLeft_lt ?_ (engineStep_engineLeft (s := s.setPending l) hp he)
    rw [hl', setPending_pending]
    obtain ⟨-, rfl⟩ | ⟨n, rest, hq, rfl⟩ := hl
    · rfl
    · rw [hq, List.length_cons, List.length_cons]

/-- A step gives a response exactly when it takes a request (rule R153). -/
theorem step_keeps_responsesInAll (h : step s = .next t) : responsesInAll t = responsesInAll s := by
  obtain ⟨n, l, hq, -, rfl⟩ | ⟨-, hidle⟩ | ⟨-, l, he, hl⟩ := step_cases h
  · simp [responsesInAll, hq, isRequest]
  · obtain ⟨-, rfl⟩ | ⟨q, l, hq, hx⟩ | ⟨src, l, hq, rfl⟩ := hidle
    · rfl
    · obtain ⟨-, -, hl, r, hr⟩ := exec_frame hx
      have howed : (s.pending.filter isRequest).length = (l.filter isRequest).length + 1 := by
        rw [hq, List.filter_cons_of_pos rfl, List.length_cons]
      rw [responsesInAll, responsesInAll, howed, hl, hr, List.length_append]
      exact Nat.add_right_comm _ _ _
    · simp [responsesInAll, hq, isRequest]
  · obtain ⟨-, -, -, hl', hr⟩ := engineStep_frame he
    obtain ⟨-, rfl⟩ | ⟨n, rest, hq, rfl⟩ := hl
    · simp [responsesInAll, hl', hr]
    · simp [responsesInAll, hl', hr, hq, isRequest]

/-- A dutiful run ends (rule R153), by the work that is left. -/
theorem dutiful_run_ends (hs : Invariant s) (hcurrent : LatchesCurrent s) (hdutiful : Dutiful s) :
    ∃ k t, Host.Core.run core k s = .next t ∧ Ended t ∧ Invariant t ∧ responsesInAll t = responsesInAll s := by
  induction hwork : workLeft s using Nat.strong_induction_on generalizing s with
  | _ n ih =>
    by_cases hended : Ended s
    · exact ⟨0, s, rfl, hended, hs, rfl⟩
    · obtain ⟨u, hu, hs', hcurrent', hdutiful'⟩ := dutifulRunsNeverStop s hs hcurrent hdutiful
      obtain ⟨k, t, hrun, ht, hinvariant, hresponses⟩ :=
        ih (workLeft u) (hwork ▸ step_workLeft_lt hended hu) hs' hcurrent' hdutiful' rfl
      exact ⟨k + 1, t, (core_run_succ hu k).trans hrun, ht, hinvariant,
        hresponses.trans (step_keeps_responsesInAll hu)⟩

end

/-! ### The hidden registers -/

section

variable {s s' t : State}

theorem phase_eq_of_eraseHidden_eq (h : eraseHidden s = eraseHidden s') : s.phase = s'.phase := by
  show (eraseHidden s).phase = (eraseHidden s').phase
  rw [h]

theorem SameVisible.symm (h : SameVisible s t) : SameVisible t s := by
  obtain rfl | ⟨hp, he⟩ := h
  · exact .inl rfl
  · exact .inr ⟨(phase_eq_of_eraseHidden_eq he).symm.trans hp, he.symm⟩

theorem SameVisible.trans {u : State} (h : SameVisible s t) (h' : SameVisible t u) : SameVisible s u := by
  obtain rfl | ⟨hp, he⟩ := h
  · exact h'
  · obtain rfl | ⟨-, he'⟩ := h'
    · exact .inr ⟨hp, he⟩
    · exact .inr ⟨hp, he.trans he'⟩

/-- An observation is of no hidden register (rule R153). -/
theorem observe_eq_of_sameVisible (h : SameVisible s t) : observe s = observe t := by
  obtain rfl | ⟨-, he⟩ := h
  · rfl
  · show observe (eraseHidden s) = observe (eraseHidden t)
    rw [he]

/-- `f` has a next state from both, and the two next states look the same. -/
abbrev AnswerAlike (f : State → Host.Outcome State Fault Refusal) (s e : State) : Prop :=
  ∃ t u, f s = .next t ∧ f e = .next u ∧ SameVisible t u

/-- A command does the same whatever an idle engine's hidden registers hold: PACK writes them all, RESET too, and the
others none. -/
theorem exec_command_eraseHidden (hp : s.phase = .idle) (c : Command) :
    AnswerAlike (exec c.toInstr) s (eraseHidden s) := by
  cases c with
  | clear => exact ⟨_, _, exec_clear s, exec_clear (eraseHidden s), .inr ⟨hp, rfl⟩⟩
  | pack =>
    cases hk : s.packCheck with
    | none => exact ⟨_, _, exec_pack_accepts hk, exec_pack_accepts (s := eraseHidden s) hk, .inl rfl⟩
    | some code => exact ⟨_, _, exec_pack_raises hk, exec_pack_raises (s := eraseHidden s) hk, .inr ⟨hp, rfl⟩⟩
  | reset => exact ⟨_, _, exec_reset s, exec_reset (eraseHidden s), .inl rfl⟩
  | illegal c => exact ⟨_, _, exec_illegal c s, exec_illegal c (eraseHidden s), .inr ⟨hp, rfl⟩⟩

theorem exec_eraseHidden (hp : s.phase = .idle) (i : Instr) : AnswerAlike (exec i) s (eraseHidden s) := by
  cases i with
  | wrCmd c =>
    obtain ⟨t, u, ht, hu, h⟩ := exec_command_eraseHidden hp (decodeCommand c)
    exact ⟨t, u, (exec_wrCmd c s).trans ht, (exec_wrCmd c _).trans hu, h⟩
  | rdStatus => exact ⟨_, _, exec_rdStatus s, exec_rdStatus (eraseHidden s), .inr ⟨hp, rfl⟩⟩
  | rdBpp => exact ⟨_, _, exec_rdBpp s, exec_rdBpp (eraseHidden s), .inr ⟨hp, rfl⟩⟩
  | wrBpp v => exact ⟨_, _, exec_wrBpp v s, exec_wrBpp v (eraseHidden s), .inr ⟨hp, rfl⟩⟩
  | rdBmp k => exact ⟨_, _, exec_rdBmp k s, exec_rdBmp k (eraseHidden s), .inr ⟨hp, rfl⟩⟩
  | wrBmp k v =>
    refine ⟨_, _, exec_wrBmp k v s, exec_wrBmp k v (eraseHidden s), ?_⟩
    by_cases hk : k.toNat < s.params.bufWords
    · rw [if_pos hk, if_pos (show k.toNat < (eraseHidden s).params.bufWords from hk)]
      exact .inr ⟨hp, rfl⟩
    · rw [if_neg hk, if_neg (show ¬ k.toNat < (eraseHidden s).params.bufWords from hk)]
      exact .inr ⟨hp, rfl⟩
  | err dir a v => exact ⟨_, _, exec_err dir a v s, exec_err dir a v (eraseHidden s), .inr ⟨hp, rfl⟩⟩
  | clear => exact exec_command_eraseHidden hp .clear
  | pack => exact exec_command_eraseHidden hp .pack
  | reset => exact exec_command_eraseHidden hp .reset
  | illegal c => exact exec_command_eraseHidden hp (.illegal c)

/-- A step of the idle machine does the same whatever the hidden registers hold. -/
theorem step_eraseHidden (hp : s.phase = .idle) : AnswerAlike step s (eraseHidden s) := by
  have hp' : (eraseHidden s).phase = .idle := hp
  cases hq : s.pending with
  | nil => exact ⟨_, _, step_idle_nil hp hq, step_idle_nil hp' hq, .inr ⟨hp, rfl⟩⟩
  | cons e l =>
    cases e with
    | request q =>
      obtain ⟨t, u, ht, hu, h⟩ := exec_eraseHidden (s := s.setPending l) hp (decode q)
      exact ⟨t, u, (step_idle_request hp hq).trans ht, (step_idle_request hp' hq).trans hu, h⟩
    | present src => exact ⟨_, _, step_idle_present hp hq, step_idle_present hp' hq, .inr ⟨hp, rfl⟩⟩
    | powerOn n => exact ⟨_, _, step_idle_powerOn hp hq, step_idle_powerOn hp' hq, .inl rfl⟩

end

/-! ### The obligations -/

/-- Settles O42: the engine takes the remaining pixel-steps and the completion, none of which looks at the request. -/
theorem heldTransactionWaitsAndThenRuns : Obligations.HeldTransactionWaitsAndThenRuns := by
  intro s q rest hs hcurrent hsupplied hp hq
  have hway : PackUnderWay s := ⟨hs, hcurrent, hsupplied, hp, by rw [hq]; trivial⟩
  refine ⟨fun j hj => ?_, ?_⟩
  · obtain ⟨u, hrun, hu, hidx, -, hpending, hresponses⟩ := hway.run_pixels hj
    exact ⟨u, hrun, hu.phase, hidx, hpending, hresponses, hu.step_eq⟩
  · obtain ⟨u, hrun, hu, hidx, hnLat, hpending, hresponses⟩ := hway.run_pixels le_rfl
    have heq : u.idx = u.nLat := by
      apply BitVec.eq_of_toNat_eq
      rw [hidx, hnLat, Nat.add_sub_of_le hway.idx_le]
    refine ⟨u.complete, ?_, rfl, hpending, hresponses, step_idle_request rfl (hpending.trans hq)⟩
    rw [core_run_add hrun, core_run_succ (hu.step_complete heq), core_run_zero]

/-- Settles O54, from the start of the run, where nothing is answered and every request is owed a response. -/
theorem everyDutifulRunEnds : Obligations.EveryDutifulRunEnds := by
  intro p script hp hscript
  obtain ⟨-, -, hstart⟩ := everyRunStartsInTheInvariant
  obtain ⟨hs, hcurrent⟩ := hstart p script hp
  have hdutiful : Dutiful (State.boot p script) := ⟨(nomatch ·), hscript⟩
  obtain ⟨k, t, hrun, ⟨hpending, hphase⟩, hinvariant, hresponses⟩ := dutiful_run_ends hs hcurrent hdutiful
  refine ⟨k, t, hrun, ⟨hpending, hphase⟩, hinvariant, ?_⟩
  simpa [responsesInAll, hpending, State.boot, State.reset] using hresponses

/-- Settles O55: each of the two steps looks like the step of the state with the hidden registers at zero, which is
the same state for both. -/
theorem hiddenRegistersAreUnobservable : Obligations.HiddenRegistersAreUnobservable := by
  rintro s s' t (rfl | ⟨hp, he⟩) h
  · exact ⟨t, h, .inl rfl, rfl⟩
  · obtain ⟨t₁, u, ht₁, hu, hsame⟩ := step_eraseHidden hp
    obtain ⟨t', u', ht', hu', hsame'⟩ := step_eraseHidden ((phase_eq_of_eraseHidden_eq he).symm.trans hp)
    cases h.symm.trans ht₁
    rw [← he] at hu'
    cases hu.symm.trans hu'
    have hvisible := SameVisible.trans hsame (SameVisible.symm hsame')
    exact ⟨t', ht', hvisible, observe_eq_of_sameVisible hvisible⟩

end Sys2Proof.Proofs
